-- ==== Sys2Proof/Config.lean ====
section
/-! DEFINITION. The implementation parameters of R6. The only open one is CAP, an argument of the block's step (log entry 3);
this file holds its range and its default. The spec leaves no value of the block open, so there is no free value. -/

namespace Sys2Proof.Config

/-- W, the limb width in bits (R6). -/
abbrev limbWidth : Nat := 32

/-- NX and NV, the number of scalar registers and of BigNat registers (R6). -/
abbrev numRegs : Nat := 8

/-- The least CAP that R6 allows; it lets VSET64 always succeed. -/
abbrev minCap : Nat := 2

/-- The greatest CAP that R6 allows, 2^26; it keeps every bit index below 2^31. -/
abbrev maxCap : Nat := 67108864

/-- The default CAP of R6: 64 limbs, 2048 bits. -/
abbrev defaultCap : Nat := 64

end Sys2Proof.Config
end

