-- ==== Sys2Proof/Word.lean ====
section
/-! DEFINITION. The words of the machine: a limb (R6, R16) and a command word (R80), both 32 bits. -/

namespace Sys2Proof

/-- One limb: "a fixed-width (32-bit) unsigned component of a BigNat's little-endian digit sequence" (R16). -/
abbrev Limb := BitVec 32

/-- One 32 bit word that is not a limb: a command word (R80), STATUS, CAUSE, FCMD, or what Observe returns. -/
abbrev Word := BitVec 32

/-- The 64 bit accumulator of the adder and of the shifter (R6). -/
abbrev Acc := BitVec 64

end Sys2Proof
end

