-- ==== Sys2Proof/Syntax.lean ====
section
/-! DEFINITION. The 35 commands of R86 as one inductive, one constructor per row of spec/opcode_table.json, the
operands in the assembler's order (R91). Register numbers and the immediate are bounded by their types, so every
term is a command the block has; what can be ill formed is a command word, and WellFormed.lean says which. -/

namespace Sys2Proof

/-- The number of a scalar register, x0 to x7 (R21). -/
abbrev XReg := Fin 8

/-- The number of a BigNat register, V0 to V7 (R23). -/
abbrev VReg := Fin 8

/-- The commands, R86. -/
inductive Instr where
  /-- LDI xd, imm16 (R110) -/
  | ldi (xd : XReg) (imm16 : BitVec 16)
  /-- LDIH xd, imm16 (R111) -/
  | ldih (xd : XReg) (imm16 : BitVec 16)
  /-- VSET vd, xs (R113) -/
  | vset (vd : VReg) (xs : XReg)
  /-- VSET64 vd, xs, xt (R114) -/
  | vset64 (vd : VReg) (xs xt : XReg)
  /-- VMOV vd, vs (R115) -/
  | vmov (vd vs : VReg)
  /-- VLEN xd, vs (R116) -/
  | vlen (xd : XReg) (vs : VReg)
  /-- VGETL xd, vs, xs (R117) -/
  | vgetl (xd : XReg) (vs : VReg) (xs : XReg)
  /-- VPUTL vd, xs, xt (R118) -/
  | vputl (vd : VReg) (xs xt : XReg)
  /-- MFOV xd (R112) -/
  | mfov (xd : XReg)
  /-- ADDL xd, xs (R131) -/
  | addl (xd xs : XReg)
  /-- ADCL xd, xs (R132) -/
  | adcl (xd xs : XReg)
  /-- VADD vd, vs (R134) -/
  | vadd (vd vs : VReg)
  /-- VADDS vd, xs (R135) -/
  | vadds (vd : VReg) (xs : XReg)
  /-- VSUB vd, vs (R136) -/
  | vsub (vd vs : VReg)
  /-- MULL xd, xs (R151) -/
  | mull (xd xs : XReg)
  /-- VMUL vd, vs (R153) -/
  | vmul (vd vs : VReg)
  /-- VMULS vd, xs (R154) -/
  | vmuls (vd : VReg) (xs : XReg)
  /-- SHLL xd, xs (R166) -/
  | shll (xd xs : XReg)
  /-- SHLLO xd, xs (R167) -/
  | shllo (xd xs : XReg)
  /-- SHRL xd, xs (R168) -/
  | shrl (xd xs : XReg)
  /-- SHRNL xd, xs, xt (R169) -/
  | shrnl (xd xs xt : XReg)
  /-- VSHL vd, xs (R170) -/
  | vshl (vd : VReg) (xs : XReg)
  /-- VSHR vd, xs (R171) -/
  | vshr (vd : VReg) (xs : XReg)
  /-- VINV vd, xs (R172) -/
  | vinv (vd : VReg) (xs : XReg)
  /-- VSETB vd, xs (R173) -/
  | vsetb (vd : VReg) (xs : XReg)
  /-- VCLRB vd, xs (R174) -/
  | vclrb (vd : VReg) (xs : XReg)
  /-- VTSTB vs, xs (R175) -/
  | vtstb (vs : VReg) (xs : XReg)
  /-- CTZL xd, xs (R197) -/
  | ctzl (xd xs : XReg)
  /-- VLAL xd, vd (R198) -/
  | vlal (xd : XReg) (vd : VReg)
  /-- VRAL xd, vd (R199) -/
  | vral (xd : XReg) (vd : VReg)
  /-- CMPL xs, xt (R211) -/
  | cmpl (xs xt : XReg)
  /-- VCMP vd, vs (R213) -/
  | vcmp (vd vs : VReg)
  /-- LOG2L xd, xs (R215) -/
  | log2l (xd xs : XReg)
  /-- VLOG2 xd, vs (R216) -/
  | vlog2 (xd : XReg) (vs : VReg)
  /-- VDIV xd, vd, vs, xs (R226) -/
  | vdiv (xd : XReg) (vd vs : VReg) (xs : XReg)
  deriving DecidableEq, Repr

end Sys2Proof
end

