-- ==== Sys2Proof/WellFormed.lean ====
section
/-! DEFINITION. Which command words are well formed: the opcode map of R86 as match and mask. A row's mask
covers the opcode byte, the `zero` field and every register field the command does not use (R87). Every term of Instr
is well formed by its types; a command word need not be (R88). -/

namespace Sys2Proof

/-- One row of R86, its mnemonic, match and mask. -/
structure Row where
  mnemonic : String
  matchBits : Word
  mask : Word
  deriving DecidableEq, Repr

/-- "A word `cmd` is this command exactly when `cmd & mask = match`" (R86). -/
def Row.accepts (r : Row) (cmd : Word) : Bool := cmd &&& r.mask == r.matchBits

/-- Two rows share no word: some bit is fixed by both and differs (R83: "the rows' patterns are disjoint"). -/
def Row.disjoint (a b : Row) : Bool := (a.matchBits ^^^ b.matchBits) &&& (a.mask &&& b.mask) != 0#32

/-- The opcode map, rows 0x10 to 0x18 (R86). -/
def rowsDataMovement : List Row := [
  ⟨"LDI", 0x10000000#32, 0xFF1F0000#32⟩,
  ⟨"LDIH", 0x11000000#32, 0xFF1F0000#32⟩,
  ⟨"VSET", 0x12000000#32, 0xFFE38FFF#32⟩,
  ⟨"VSET64", 0x13000000#32, 0xFFE00FFF#32⟩,
  ⟨"VMOV", 0x14000000#32, 0xFFFF81FF#32⟩,
  ⟨"VLEN", 0x15000000#32, 0xFF1FF1FF#32⟩,
  ⟨"VGETL", 0x16000000#32, 0xFF03F1FF#32⟩,
  ⟨"VPUTL", 0x17000000#32, 0xFFE00FFF#32⟩,
  ⟨"MFOV", 0x18000000#32, 0xFF1FFFFF#32⟩]

/-- The opcode map, rows 0x20 to 0x24 (R86). -/
def rowsLimbAdder : List Row := [
  ⟨"ADDL", 0x20000000#32, 0xFF03FFFF#32⟩,
  ⟨"ADCL", 0x21000000#32, 0xFF03FFFF#32⟩,
  ⟨"VADD", 0x22000000#32, 0xFFFF81FF#32⟩,
  ⟨"VADDS", 0x23000000#32, 0xFFE38FFF#32⟩,
  ⟨"VSUB", 0x24000000#32, 0xFFFF81FF#32⟩]

/-- The opcode map, rows 0x30 to 0x32 (R86). -/
def rowsLimbMultiplier : List Row := [
  ⟨"MULL", 0x30000000#32, 0xFF03FFFF#32⟩,
  ⟨"VMUL", 0x31000000#32, 0xFFFF81FF#32⟩,
  ⟨"VMULS", 0x32000000#32, 0xFFE38FFF#32⟩]

/-- The opcode map, rows 0x40 to 0x49 (R86). -/
def rowsBarrelShifter : List Row := [
  ⟨"SHLL", 0x40000000#32, 0xFF03FFFF#32⟩,
  ⟨"SHLLO", 0x41000000#32, 0xFF03FFFF#32⟩,
  ⟨"SHRL", 0x42000000#32, 0xFF03FFFF#32⟩,
  ⟨"SHRNL", 0x43000000#32, 0xFF007FFF#32⟩,
  ⟨"VSHL", 0x44000000#32, 0xFFE38FFF#32⟩,
  ⟨"VSHR", 0x45000000#32, 0xFFE38FFF#32⟩,
  ⟨"VINV", 0x46000000#32, 0xFFE38FFF#32⟩,
  ⟨"VSETB", 0x47000000#32, 0xFFE38FFF#32⟩,
  ⟨"VCLRB", 0x48000000#32, 0xFFE38FFF#32⟩,
  ⟨"VTSTB", 0x49000000#32, 0xFFE3F1FF#32⟩]

/-- The opcode map, rows 0x50 to 0x52 (R86). -/
def rowsNormalizerShifter : List Row := [
  ⟨"CTZL", 0x50000000#32, 0xFF03FFFF#32⟩,
  ⟨"VLAL", 0x51000000#32, 0xFF1F8FFF#32⟩,
  ⟨"VRAL", 0x52000000#32, 0xFF1F8FFF#32⟩]

/-- The opcode map, rows 0x60 to 0x63 (R86). -/
def rowsComparisonUnit : List Row := [
  ⟨"CMPL", 0x60000000#32, 0xFFE07FFF#32⟩,
  ⟨"VCMP", 0x61000000#32, 0xFFFF81FF#32⟩,
  ⟨"LOG2L", 0x62000000#32, 0xFF03FFFF#32⟩,
  ⟨"VLOG2", 0x63000000#32, 0xFF1FF1FF#32⟩]

/-- The opcode map, rows 0x70 (R86). -/
def rowsIntegerDivider : List Row := [
  ⟨"VDIV", 0x70000000#32, 0xFF0381FF#32⟩]

/-- The whole opcode map of R86, 35 rows. -/
def opcodeRows : List Row :=
  rowsDataMovement ++ rowsLimbAdder ++ rowsLimbMultiplier ++ rowsBarrelShifter ++
    rowsNormalizerShifter ++ rowsComparisonUnit ++ rowsIntegerDivider

/-- A command word is well formed when it matches a row of R86; every other word is illegal (R88). -/
def wordWellFormed (cmd : Word) : Bool := opcodeRows.any fun r => r.accepts cmd

end Sys2Proof
end

