-- ==== Sys2Proof/Decode.lean ====
section
/-! DEFINITION. The decoder of R83, total on every 32 bit word, and the encoder that writes a command's word from the
formats R81 and R82 and the opcode map R86. -/

namespace Sys2Proof

/-- The two outcomes of decoding (R83): a decoded command, or `ReservedEncoding`. -/
inductive Decoded where
  /-- The word is this command. -/
  | command (i : Instr)
  /-- The word matches no row of R86 (R88). -/
  | reservedEncoding
  deriving DecidableEq, Repr

/-- A 3 bit register field as a register number (R81). -/
def regField (f : BitVec 3) : Fin 8 := f.toFin

/-- `opcode`, bits 31:24 (R81, R82). -/
def opcodeOf (w : Word) : BitVec 8 := w.extractLsb' 24 8

/-- `xd`, bits 23:21 (R81, R82). -/
def xdOf (w : Word) : XReg := regField (w.extractLsb' 21 3)

/-- `xs`, bits 20:18 (R81). -/
def xsOf (w : Word) : XReg := regField (w.extractLsb' 18 3)

/-- `xt`, bits 17:15 (R81). -/
def xtOf (w : Word) : XReg := regField (w.extractLsb' 15 3)

/-- `vd`, bits 14:12 (R81). -/
def vdOf (w : Word) : VReg := regField (w.extractLsb' 12 3)

/-- `vs`, bits 11:9 (R81). -/
def vsOf (w : Word) : VReg := regField (w.extractLsb' 9 3)

/-- The `zero` field of format R, bits 8:0 (R81). -/
def zeroROf (w : Word) : BitVec 9 := w.extractLsb' 0 9

/-- The `zero` field of format I, bits 20:16 (R82). -/
def zeroIOf (w : Word) : BitVec 5 := w.extractLsb' 16 5

/-- `imm16`, bits 15:0 (R82). -/
def imm16Of (w : Word) : BitVec 16 := w.extractLsb' 0 16

/-- Which of the five register fields of format R a command uses (R86). -/
structure Uses where
  xd : Bool
  xs : Bool
  xt : Bool
  vd : Bool
  vs : Bool
  deriving DecidableEq, Repr

/-- Format I (R82, R83): the `zero` field must be 0. -/
def formatI (w : Word) (i : Instr) : Decoded :=
  if zeroIOf w = 0 then .command i else .reservedEncoding

/-- Format R (R81, R83): the `zero` field must be 0, and so must every register field the command does not use. -/
def formatR (w : Word) (u : Uses) (i : Instr) : Decoded :=
  if zeroROf w = 0 ∧ (u.xd = true ∨ xdOf w = 0) ∧ (u.xs = true ∨ xsOf w = 0) ∧ (u.xt = true ∨ xtOf w = 0) ∧
      (u.vd = true ∨ vdOf w = 0) ∧ (u.vs = true ∨ vsOf w = 0)
  then .command i else .reservedEncoding

/-- Decoding a command word (R83). It reads no state. An opcode byte outside the map is `ReservedEncoding` (R88). -/
def decode (w : Word) : Decoded :=
  match (opcodeOf w).toNat with
  | 0x10 => formatI w (.ldi (xdOf w) (imm16Of w))
  | 0x11 => formatI w (.ldih (xdOf w) (imm16Of w))
  | 0x12 => formatR w ⟨false, true, false, true, false⟩ (.vset (vdOf w) (xsOf w))
  | 0x13 => formatR w ⟨false, true, true, true, false⟩ (.vset64 (vdOf w) (xsOf w) (xtOf w))
  | 0x14 => formatR w ⟨false, false, false, true, true⟩ (.vmov (vdOf w) (vsOf w))
  | 0x15 => formatR w ⟨true, false, false, false, true⟩ (.vlen (xdOf w) (vsOf w))
  | 0x16 => formatR w ⟨true, true, false, false, true⟩ (.vgetl (xdOf w) (vsOf w) (xsOf w))
  | 0x17 => formatR w ⟨false, true, true, true, false⟩ (.vputl (vdOf w) (xsOf w) (xtOf w))
  | 0x18 => formatR w ⟨true, false, false, false, false⟩ (.mfov (xdOf w))
  | 0x20 => formatR w ⟨true, true, false, false, false⟩ (.addl (xdOf w) (xsOf w))
  | 0x21 => formatR w ⟨true, true, false, false, false⟩ (.adcl (xdOf w) (xsOf w))
  | 0x22 => formatR w ⟨false, false, false, true, true⟩ (.vadd (vdOf w) (vsOf w))
  | 0x23 => formatR w ⟨false, true, false, true, false⟩ (.vadds (vdOf w) (xsOf w))
  | 0x24 => formatR w ⟨false, false, false, true, true⟩ (.vsub (vdOf w) (vsOf w))
  | 0x30 => formatR w ⟨true, true, false, false, false⟩ (.mull (xdOf w) (xsOf w))
  | 0x31 => formatR w ⟨false, false, false, true, true⟩ (.vmul (vdOf w) (vsOf w))
  | 0x32 => formatR w ⟨false, true, false, true, false⟩ (.vmuls (vdOf w) (xsOf w))
  | 0x40 => formatR w ⟨true, true, false, false, false⟩ (.shll (xdOf w) (xsOf w))
  | 0x41 => formatR w ⟨true, true, false, false, false⟩ (.shllo (xdOf w) (xsOf w))
  | 0x42 => formatR w ⟨true, true, false, false, false⟩ (.shrl (xdOf w) (xsOf w))
  | 0x43 => formatR w ⟨true, true, true, false, false⟩ (.shrnl (xdOf w) (xsOf w) (xtOf w))
  | 0x44 => formatR w ⟨false, true, false, true, false⟩ (.vshl (vdOf w) (xsOf w))
  | 0x45 => formatR w ⟨false, true, false, true, false⟩ (.vshr (vdOf w) (xsOf w))
  | 0x46 => formatR w ⟨false, true, false, true, false⟩ (.vinv (vdOf w) (xsOf w))
  | 0x47 => formatR w ⟨false, true, false, true, false⟩ (.vsetb (vdOf w) (xsOf w))
  | 0x48 => formatR w ⟨false, true, false, true, false⟩ (.vclrb (vdOf w) (xsOf w))
  | 0x49 => formatR w ⟨false, true, false, false, true⟩ (.vtstb (vsOf w) (xsOf w))
  | 0x50 => formatR w ⟨true, true, false, false, false⟩ (.ctzl (xdOf w) (xsOf w))
  | 0x51 => formatR w ⟨true, false, false, true, false⟩ (.vlal (xdOf w) (vdOf w))
  | 0x52 => formatR w ⟨true, false, false, true, false⟩ (.vral (xdOf w) (vdOf w))
  | 0x60 => formatR w ⟨false, true, true, false, false⟩ (.cmpl (xsOf w) (xtOf w))
  | 0x61 => formatR w ⟨false, false, false, true, true⟩ (.vcmp (vdOf w) (vsOf w))
  | 0x62 => formatR w ⟨true, true, false, false, false⟩ (.log2l (xdOf w) (xsOf w))
  | 0x63 => formatR w ⟨true, false, false, false, true⟩ (.vlog2 (xdOf w) (vsOf w))
  | 0x70 => formatR w ⟨true, true, false, true, true⟩ (.vdiv (xdOf w) (vdOf w) (vsOf w) (xsOf w))
  | _ => .reservedEncoding

/-- A register number as a 3 bit field (R81). -/
def fieldOf (r : Fin 8) : BitVec 3 := BitVec.ofNat 3 r.val

/-- A word of format I (R82), its `zero` field 0. -/
def encodeI (op : BitVec 8) (xd : XReg) (imm16 : BitVec 16) : Word :=
  op ++ fieldOf xd ++ 0#5 ++ imm16

/-- A word of format R (R81), its `zero` field 0. -/
def encodeR (op : BitVec 8) (xd xs xt : XReg) (vd vs : VReg) : Word :=
  op ++ fieldOf xd ++ fieldOf xs ++ fieldOf xt ++ fieldOf vd ++ fieldOf vs ++ 0#9

/-- The command word of a command (R86); a field the command does not use is 0. -/
def encode : Instr → Word
  | .ldi xd imm16 => encodeI 0x10#8 xd imm16
  | .ldih xd imm16 => encodeI 0x11#8 xd imm16
  | .vset vd xs => encodeR 0x12#8 0 xs 0 vd 0
  | .vset64 vd xs xt => encodeR 0x13#8 0 xs xt vd 0
  | .vmov vd vs => encodeR 0x14#8 0 0 0 vd vs
  | .vlen xd vs => encodeR 0x15#8 xd 0 0 0 vs
  | .vgetl xd vs xs => encodeR 0x16#8 xd xs 0 0 vs
  | .vputl vd xs xt => encodeR 0x17#8 0 xs xt vd 0
  | .mfov xd => encodeR 0x18#8 xd 0 0 0 0
  | .addl xd xs => encodeR 0x20#8 xd xs 0 0 0
  | .adcl xd xs => encodeR 0x21#8 xd xs 0 0 0
  | .vadd vd vs => encodeR 0x22#8 0 0 0 vd vs
  | .vadds vd xs => encodeR 0x23#8 0 xs 0 vd 0
  | .vsub vd vs => encodeR 0x24#8 0 0 0 vd vs
  | .mull xd xs => encodeR 0x30#8 xd xs 0 0 0
  | .vmul vd vs => encodeR 0x31#8 0 0 0 vd vs
  | .vmuls vd xs => encodeR 0x32#8 0 xs 0 vd 0
  | .shll xd xs => encodeR 0x40#8 xd xs 0 0 0
  | .shllo xd xs => encodeR 0x41#8 xd xs 0 0 0
  | .shrl xd xs => encodeR 0x42#8 xd xs 0 0 0
  | .shrnl xd xs xt => encodeR 0x43#8 xd xs xt 0 0
  | .vshl vd xs => encodeR 0x44#8 0 xs 0 vd 0
  | .vshr vd xs => encodeR 0x45#8 0 xs 0 vd 0
  | .vinv vd xs => encodeR 0x46#8 0 xs 0 vd 0
  | .vsetb vd xs => encodeR 0x47#8 0 xs 0 vd 0
  | .vclrb vd xs => encodeR 0x48#8 0 xs 0 vd 0
  | .vtstb vs xs => encodeR 0x49#8 0 xs 0 0 vs
  | .ctzl xd xs => encodeR 0x50#8 xd xs 0 0 0
  | .vlal xd vd => encodeR 0x51#8 xd 0 0 vd 0
  | .vral xd vd => encodeR 0x52#8 xd 0 0 vd 0
  | .cmpl xs xt => encodeR 0x60#8 0 xs xt 0 0
  | .vcmp vd vs => encodeR 0x61#8 0 0 0 vd vs
  | .log2l xd xs => encodeR 0x62#8 xd xs 0 0 0
  | .vlog2 xd vs => encodeR 0x63#8 xd 0 0 0 vs
  | .vdiv xd vd vs xs => encodeR 0x70#8 xd xs 0 vd vs

/-- The command the decoder reads from a row's word of `nbits` bits, bit 0 the least significant. Every command is one
32 bit word (R80), handed over as one value and not as bytes (R63). A word of more than 32 bits is no command. -/
def decodeTableWord (nbits w : Nat) : Option Instr :=
  if w < 2 ^ nbits ∧ w < 2 ^ 32 then
    match decode (BitVec.ofNat 32 w) with
    | .command i => some i
    | .reservedEncoding => none
  else none

end Sys2Proof
end

