-- ==== Sys2Proof/Machine/State.lean ====
section
/-! DEFINITION. The state of the block (R20), the parameters of its step (R41), the host's transactions (R296), the reasons a step could stop, and the
state after reset (R40, R310). -/

namespace Sys2Proof.Machine

/-- Why a step stops with a fault. There is no such reason, so the type has no constructor: the step function of R291
is total, and the block's own five faults are a NEXT state with `F` set (R288; log entry 10). Safe. -/
inductive Fault where
  deriving DecidableEq, Repr

/-- Why a step gives an instruction no meaning. -/
inductive Refusal where
  /-- Raised by an arm of exec whose command has no meaning yet; no arm raises it. Safe. -/
  | notModelled (mnemonic : String)
  deriving DecidableEq, Repr

/-- The host's transactions (R296). -/
inductive Transaction where
  /-- Issue(cmd): one command word (R298). -/
  | issue (cmd : Word)
  /-- Observe(selector), by the table of R42 (R297). -/
  | observe (selector : Nat)
  /-- Observe(selector, j), with a limb index (R297). -/
  | observeLimb (selector j : Nat)
  /-- Reset (R299). -/
  | reset
  deriving DecidableEq, Repr

/-- The whole architectural state of the block: exactly the six components of R20, and nothing else. `Block.step` of
Machine/BlockStep.lean is the step function of R291 over it. -/
structure Block where
  /-- x[0] to x[7], the scalar limb registers (R21). -/
  x : Vector Limb 8
  /-- V[0] to V[7], the BigNat registers, each a list of limbs, limb 0 first (R23). -/
  v : Vector (List Limb) 8
  /-- OV, the overflow limb (R28). -/
  ov : Limb
  /-- STATUS (R29); Machine/Flags.lean names its bits. -/
  status : Word
  /-- CAUSE, the code of the fault that set F (R34). -/
  cause : Word
  /-- FCMD, the command word that faulted (R35). -/
  fcmd : Word
  deriving DecidableEq, Repr

/-- What R41 says is no state of the block but a parameter of a step: CAP, the commands the host means to issue next, and
the host's copy of what it observed. No history of commands is among them (log entries 1, 2 and 3). -/
structure StepParams where
  /-- CAP, the build parameter of R6, which no step changes (log entry 3). -/
  cap : Nat
  /-- The transactions the host will ask for, the next one first (R296; log entry 1). -/
  pending : List Transaction
  /-- What the last transaction returned to the host (R297, R298; log entry 2). -/
  reply : Option Word
  deriving DecidableEq, Repr

/-- What one step of the machine takes and gives: the block (R20) together with the parameters of the step (R41), because
the step of the host's interface has no other argument and no other result. -/
structure State extends Block, StepParams where
  deriving DecidableEq, Repr

/-- The block right after reset (R40, R310): every scalar register 0, every BigNat register [0], OV, STATUS, CAUSE and
FCMD 0. -/
def Block.reset : Block where
  x := Vector.replicate 8 0#32
  v := Vector.replicate 8 [0#32]
  ov := 0#32
  status := 0#32
  cause := 0#32
  fcmd := 0#32

/-- The machine right after reset: the block of R40, with CAP at the default of R6 and a host that has asked for nothing
(log entries 1 to 3). -/
def State.reset : State where
  toBlock := Block.reset
  cap := Config.defaultCap
  pending := []
  reply := none

/-- `s` with its block become `b`; the parameters of the step stay (R41). -/
def State.withBlock (s : State) (b : Block) : State := { s with toBlock := b }

end Sys2Proof.Machine
end

