-- ==== Sys2Proof/Machine/Flags.lean ====
section
/-! DEFINITION. STATUS (R29): the places of its five live bits, reading one, writing one, and the flag computations of
R30 to R33. A write changes the named bit and no other. -/

namespace Sys2Proof.Machine

/-- `C`, bit 0: carry out of the last ADDL or ADCL (R29, R30). -/
abbrev bitC : Nat := 0

/-- `EQ`, bit 1: the last compare found the operands equal (R29, R31). -/
abbrev bitEQ : Nat := 1

/-- `LT`, bit 2: the last compare found the first operand less (R29, R31). -/
abbrev bitLT : Nat := 2

/-- `T`, bit 3: the bit read by the last VTSTB (R29, R32). -/
abbrev bitT : Nat := 3

/-- `F`, bit 31: the block has faulted (R29, R33). -/
abbrev bitF : Nat := 31

/-- The bits of STATUS that always read 0, 30 down to 4 (R29). -/
def reservedStatus : Word := 0x7FFFFFF0#32

/-- STATUS with bit `n` made `b` and every other bit kept. -/
def putBit (w : Word) (n : Nat) (b : Bool) : Word :=
  if b then w ||| (1#32 <<< n) else w &&& ~~~(1#32 <<< n)

/-- Reads `C` (R30). -/
def Block.flagC (b : Block) : Bool := b.status.getLsbD bitC

/-- Reads `EQ` (R31). -/
def Block.flagEQ (b : Block) : Bool := b.status.getLsbD bitEQ

/-- Reads `LT` (R31). -/
def Block.flagLT (b : Block) : Bool := b.status.getLsbD bitLT

/-- Reads `T` (R32). -/
def Block.flagT (b : Block) : Bool := b.status.getLsbD bitT

/-- Reads `F` (R33). -/
def Block.flagF (b : Block) : Bool := b.status.getLsbD bitF

/-- Writes `C` (R30), the adder's carry out. -/
def Block.setC (b : Block) (c : Bool) : Block := { b with status := putBit b.status bitC c }

/-- Writes `EQ` and `LT` together from the outcome of a compare (R31): equal gives 1, 0; less gives 0, 1; greater gives
0, 0. -/
def Block.setCompare (b : Block) (r : Ordering) : Block :=
  { b with status := putBit (putBit b.status bitEQ (r == .eq)) bitLT (r == .lt) }

/-- Writes `T` (R32), the tested bit. -/
def Block.setT (b : Block) (c : Bool) : Block := { b with status := putBit b.status bitT c }

/-- Sets `F` (R33); only fault entry does (R288). -/
def Block.setF (b : Block) : Block := { b with status := putBit b.status bitF true }

end Sys2Proof.Machine
end

