-- ==== Sys2Proof/Machine/LimbSeq.lean ====
section
/-! DEFINITION. The primitive functions of R11 and R12 on limb sequences. A limb sequence is a list of limbs, the least
significant first (R62). -/

namespace Sys2Proof.Machine

/-- `val(L)`, the natural number a limb sequence encodes (R11). -/
def val : List Limb → Nat
  | [] => 0
  | l :: L => l.toNat + 2 ^ 32 * val L

/-- `bitlen(n)`: 0 for 0, else one more than the index of the highest set bit (R12). -/
def bitlen (n : Nat) : Nat := if n = 0 then 0 else Nat.log2 n + 1

/-- The lowest set bit of `n` among the `fuel` bits from bit `i` upward; `i + fuel` when there is none. -/
def lowestBitFrom (n : Nat) : (fuel i : Nat) → Nat
  | 0, i => i
  | fuel + 1, i => if n.testBit i then i else lowestBitFrom n fuel (i + 1)

/-- `ctz(n)` for `n > 0`: the index of the lowest set bit (R12). -/
def ctz (n : Nat) : Nat := lowestBitFrom n (bitlen n) 0

/-- "all trailing zero limbs" dropped (R12): the zero limbs at the high-index end. -/
def dropTopZeros : List Limb → List Limb
  | [] => []
  | l :: L =>
    match dropTopZeros L with
    | [] => if l = 0#32 then [] else [l]
    | m :: M => l :: m :: M

/-- `reduce(L)` (R12, R195): the zero limbs at the high-index end dropped, "preserving the invariant that at least one
limb remains". -/
def reduce (L : List Limb) : List Limb :=
  match dropTopZeros L with
  | [] => [0#32]
  | m :: M => m :: M

/-- The `k` low limbs of `n`, limb 0 first. -/
def lowLimbs : (k n : Nat) → List Limb
  | 0, _ => []
  | k + 1, n => BitVec.ofNat 32 n :: lowLimbs k (n / 2 ^ 32)

/-- `limbs(n)` (R12): the reduced limb sequence whose value is `n`; `limbs(0) = [0]`, else `(bitlen(n) + 31) div 32`
limbs. -/
def limbs (n : Nat) : List Limb := if n = 0 then [0#32] else lowLimbs ((bitlen n + 31) / 32) n

/-- Bit `i` of the value of a limb sequence, 0 above its top limb (R175). -/
def seqBit (L : List Limb) (i : Nat) : Bool := (L.getD (i / 32) 0#32).getLsbD (i % 32)

/-- Invariants 1 and 2 of R24: never empty, and no zero limb on top unless it is the only one. -/
def reducedForm (L : List Limb) : Bool := !L.isEmpty && (L.length == 1 || L.getLastD 0#32 != 0#32)

end Sys2Proof.Machine
end

