-- ==== Sys2Proof/Machine/Operands.lean ====
section
/-! DEFINITION. The operand forms of R84 and R85 (a scalar register, a BigNat register, imm16) and the ranges R282 and R285
put on scalar operands. Every read sees the state before the command (R38). -/

namespace Sys2Proof.Machine

/-- `x[i]` (R11, R21). -/
def Block.readX (b : Block) (r : XReg) : Limb := b.x[r]

/-- `V[i]` as a limb sequence (R11, R23). -/
def Block.readV (b : Block) (r : VReg) : List Limb := b.v[r]

/-- `x[i]` as a count or an index, a natural number below 2^32 (R84). -/
def Block.countX (b : Block) (r : XReg) : Nat := (b.readX r).toNat

/-- LDI's use of the immediate: `zext_32(imm16)` (R84). -/
def immLow (imm16 : BitVec 16) : Limb := imm16.setWidth 32

/-- LDIH's use of the immediate: `imm16` above the low half of the old value (R84). -/
def immHigh (imm16 : BitVec 16) (old : Limb) : Limb := imm16 ++ old.extractLsb' 0 16

/-- A count or an index as the 32 bit value a scalar register receives; R6 keeps all of them below 2^32. -/
def ofCount (n : Nat) : Limb := BitVec.ofNat 32 n

/-- The shift counts a one-limb shift takes, 0 to 31 (R282). -/
def shiftCountLegal (n : Nat) : Bool := decide (n < 32)

/-- The limb indexes VGETL takes, below the length (R61, R117, R282). -/
def readIndexLegal (L : List Limb) (j : Nat) : Bool := decide (j < L.length)

/-- The limb indexes VPUTL takes, up to the length (R61, R118, R282). -/
def writeIndexLegal (L : List Limb) (j : Nat) : Bool := decide (j ≤ L.length)

/-- `fits` (R12): a sequence of at most `CAP` limbs; CAP is an argument (R6). -/
def fitsSeq (cap : Nat) (L : List Limb) : Bool := decide (L.length ≤ cap)

/-- `fits` (R12, R285): a width of at most `32 * CAP` bits. -/
def fitsBits (cap n : Nat) : Bool := decide (n ≤ 32 * cap)

end Sys2Proof.Machine
end

