-- ==== Sys2Proof/Machine/Ops.lean ====
section
/-! DEFINITION. The operations every meaning is made of: writing a register, taking a fault (R288), and the one way out
of the faulted state, reset (R289, R310). -/

namespace Sys2Proof.Machine

/-- What a meaning and a step answer. -/
abbrev Result := Host.Outcome State Fault Refusal

/-- `x[i] <- l` (R11). -/
def Block.writeX (b : Block) (r : XReg) (l : Limb) : Block := { b with x := b.x.set r l }

/-- `V[i] <- L` (R11). -/
def Block.writeV (b : Block) (r : VReg) (L : List Limb) : Block := { b with v := b.v.set r L }

/-- `OV <- l` (R28). -/
def Block.writeOV (b : Block) (l : Limb) : Block := { b with ov := l }

/-- The five synchronous faults (R280). -/
inductive Cause where
  /-- The command word matches no row of the opcode table (R281). -/
  | reservedEncoding
  /-- A scalar operand is outside the range the command allows (R282). -/
  | operandRange
  /-- The operand is zero and the function is undefined at zero (R283). -/
  | zeroOperand
  /-- The denominator is zero (R284). -/
  | divideByZero
  /-- The result, or for VDIV a working value, needs more than CAP limbs (R285). -/
  | capacityOverflow
  deriving DecidableEq, Repr

/-- The fault codes 1 to 5 (R280), bits 31:3 zero (R34). -/
def Cause.code : Cause → Word
  | .reservedEncoding => 1#32
  | .operandRange => 2#32
  | .zeroOperand => 3#32
  | .divideByZero => 4#32
  | .capacityOverflow => 5#32

/-- Fault entry (R288): CAUSE, FCMD and F are written, nothing else changes. -/
def Block.faultEntry (k : Cause) (cmd : Word) (b : Block) : Block :=
  ({ b with cause := k.code, fcmd := cmd } : Block).setF

/-- Fault entry on the machine's state (R288); the parameters of the step stay (R41). -/
def faultEntry (k : Cause) (cmd : Word) (s : State) : State := s.withBlock (s.toBlock.faultEntry k cmd)

/-- Reset (R310), the only way out of the faulted state (R289): every piece of the block's state has its reset value. What
belongs to the build and to the host stays (R36, R41). -/
def resetBlock (s : State) : State := s.withBlock Block.reset

/-- `raise <Name>` in a command's rule (R13). The command word recorded is the command's own, which its fields determine
(log entry 5). -/
def raise (i : Instr) (k : Cause) (b : Block) : Block := b.faultEntry k (encode i)

/-- `if len(R) > CAP then raise CapacityOverflow` and else `V[vd] <- R`, the capacity test on the reduced result
(R13, R285). -/
def commitV (cap : Nat) (i : Instr) (vd : VReg) (R : List Limb) (b : Block) : Block :=
  if fitsSeq cap R then b.writeV vd R else raise i .capacityOverflow b

end Sys2Proof.Machine
end

