-- ==== Sys2Proof/Machine/LimbUnits.lean ====
section
/-! DEFINITION. The functions of the six units on single limbs: the adder R130, the multiplier R151, the shifter R165, the
lowest set bit R196, the order R210 and the highest set bit R214. -/

namespace Sys2Proof.Machine

/-- The adder's 64 bit accumulator, `zext_64(a) + zext_64(b) + cin` (R130). -/
def addAcc (a b : Limb) (cin : Bool) : Acc := a.setWidth 64 + b.setWidth 64 + (BitVec.ofBool cin).setWidth 64

/-- `limb_add(a, b, cin)`: the sum limb and the carry out, "`acc >> 32` (= `acc[32]`)" (R130). -/
def limbAdd (a b : Limb) (cin : Bool) : Limb × Bool :=
  ((addAcc a b cin).extractLsb' 0 32, (addAcc a b cin).getLsbD 32)

/-- The exact 64 bit product of two limbs (R151). -/
def limbProduct (a b : Limb) : Acc := a.setWidth 64 * b.setWidth 64

/-- The shifter's 64 bit accumulator, `(zext_64(l) << r) | zext_64(ov_in)` (R165). -/
def shlAcc (l : Limb) (r : Nat) (ovIn : Limb) : Acc := (l.setWidth 64 <<< r) ||| ovIn.setWidth 64

/-- `shl_step(l, r, ov_in)`: "store low 32, carry high 32" (R165). -/
def shlStep (l : Limb) (r : Nat) (ovIn : Limb) : Limb × Limb :=
  ((shlAcc l r ovIn).extractLsb' 0 32, (shlAcc l r ovIn).extractLsb' 32 32)

/-- The mask `2^r - 1` in 32 bits (R165, R172). -/
def lowMask (r : Nat) : Limb := BitVec.ofNat 32 (2 ^ r - 1)

/-- `shr_step(l, next, r)` (R165). For `r = 0` the mask is 0, so the term taken from `next` is 0. -/
def shrStep (l next : Limb) (r : Nat) : Limb := (l >>> r) ||| ((next &&& lowMask r) <<< (32 - r))

/-- `ctz32(l)` for `l != 0`: the index of the lowest set bit (R196). -/
def ctz32 (l : Limb) : Nat := ctz l.toNat

/-- The table of the de Bruijn form that R196 gives for a reader; the spec marks it general knowledge. -/
def deBruijnTable : List Nat :=
  [0, 1, 28, 2, 29, 14, 24, 3, 30, 22, 20, 15, 25, 17, 4, 8, 31, 27, 13, 23, 21, 19, 16, 7, 26, 12, 18, 6, 11, 5, 10, 9]

/-- The de Bruijn form of `ctz32` that R196 gives for a reader. No command is defined by it. -/
def ctz32DeBruijn (l : Limb) : Nat :=
  deBruijnTable.getD (((l &&& -l) * 0x077CB531#32) >>> 27).toNat 0

/-- `cmp32(a, b)`, the order of the natural numbers (R210). -/
def cmp32 (a b : Limb) : Ordering := compare a.toNat b.toNat

/-- `top_bit32(l)` for `l != 0`: the index of the highest set bit (R214). -/
def topBit32 (l : Limb) : Nat := Nat.log2 l.toNat

end Sys2Proof.Machine
end

