-- ==== Sys2Proof/Machine/SeqUnits.lean ====
section
/-! DEFINITION. The functions of the six units on limb sequences, as the rules give them limb by limb: R133, R136, R150,
R170 to R172, R212, R214, and the divider R225 on natural numbers. Working values are as wide as they need to be
(R285). -/

namespace Sys2Proof.Machine

/-- The loop of `chain_add` (R133) over `n` limbs, the carry handed upward; a final carry appends the limb 1. A limb
above the end of an operand is 0. -/
def chainAddLoop : (n : Nat) → (A B : List Limb) → (c : Bool) → List Limb
  | 0, _, _, c => if c then [1#32] else []
  | n + 1, A, B, c =>
    match limbAdd (A.headD 0#32) (B.headD 0#32) c with
    | (sum, cout) => sum :: chainAddLoop n A.tail B.tail cout

/-- `chain_add(A, B)` (R133). -/
def chainAdd (A B : List Limb) : List Limb := reduce (chainAddLoop (max A.length B.length) A B false)

/-- The loop of `shl` (R170) from limb 0 upward; a non-zero final overflow appends one limb. -/
def shlLoop (r : Nat) : List Limb → Limb → List Limb
  | [], ov => if ov = 0#32 then [] else [ov]
  | l :: L, ov =>
    match shlStep l r ov with
    | (out, ovOut) => out :: shlLoop r L ovOut

/-- `shl(L, n)` (R170): `n div 32` zero limbs below, then a pass of the limb shifter by `n mod 32`. -/
def shl (L : List Limb) (n : Nat) : List Limb :=
  reduce (shlLoop (n % 32) (List.replicate (n / 32) 0#32 ++ L) 0#32)

/-- The loop of `shr` (R171): each limb but the last takes bits from the next, the last is shifted alone. -/
def shrLoop (r : Nat) : List Limb → List Limb
  | [] => []
  | [l] => [l >>> r]
  | l :: m :: L => shrStep l m r :: shrLoop r (m :: L)

/-- `shr(L, n)` (R171). -/
def shr (L : List Limb) (n : Nat) : List Limb :=
  if n / 32 ≥ L.length then [0#32] else reduce (shrLoop (n % 32) (L.drop (n / 32)))

/-- The loop of `inv` (R172): `q` whole limbs complemented, then the low `r` bits of the next. -/
def invLoop (r : Nat) : (q : Nat) → List Limb → List Limb
  | _, [] => []
  | q + 1, l :: L => (l ^^^ 0xFFFFFFFF#32) :: invLoop r q L
  | 0, l :: L => (l ^^^ lowMask r) :: L

/-- `L` extended with limbs of 0 up to `n` limbs when it is shorter (R172, R173). -/
def extendTo (L : List Limb) (n : Nat) : List Limb := L ++ List.replicate (n - L.length) 0#32

/-- `inv(v, n)` on limbs (R172): the low `n` bits complemented, limbs created as needed. -/
def inv (L : List Limb) (n : Nat) : List Limb :=
  reduce (invLoop (n % 32) (n / 32) (extendTo L (n / 32 + if n % 32 = 0 then 0 else 1)))

/-- Bit `i` of `L` set (R173): limb `i div 32` gets bit `i mod 32`, after extension with limbs of 0. -/
def setBit (L : List Limb) (i : Nat) : List Limb :=
  (extendTo L (i / 32 + 1)).modify (i / 32) fun l => l ||| (1#32 <<< (i % 32))

/-- Bit `i` of `L` cleared (R174): `limbs(val - 2^i)` when the bit is 1, no change when it is 0. -/
def clearBit (L : List Limb) (i : Nat) : List Limb :=
  if seqBit L i then limbs (val L - 2 ^ i) else L

/-- Two limb sequences of one length, highest limb first: the first difference decides (R212). -/
def cmpHighFirst : (A B : List Limb) → Ordering
  | a :: A, b :: B =>
    match cmp32 a b with
    | .eq => cmpHighFirst A B
    | r => r
  | _, _ => .eq

/-- `cmp(A, B)` on reduced limb sequences (R212): the lengths decide first. -/
def cmp (A B : List Limb) : Ordering :=
  match compare A.length B.length with
  | .eq => cmpHighFirst A.reverse B.reverse
  | r => r

/-- `log2(L)` of a reduced sequence that is not zero (R214). -/
def seqLog2 (L : List Limb) : Nat := (L.length - 1) * 32 + topBit32 (L.getLastD 0#32)

/-- Step 4 of VSUB (R136), for `big > small`: invert `small` over the width `k` of `big`, add it and 1
to `big`, and drop bit `k`. -/
def subLarger (big small : List Limb) : List Limb :=
  let k := bitlen (val big)
  let t := chainAdd (chainAdd big (inv small k)) [1#32]
  if bitlen (val t) > k then clearBit t k else t

/-- The document's subtraction (R136): equal gives [0], a zero first operand gives the second, else the larger less the
smaller. -/
def absDiff (A B : List Limb) : List Limb :=
  match cmp A B with
  | .eq => [0#32]
  | .lt => if val A = 0 then B else subLarger B A
  | .gt => subLarger A B

/-- The loop of `shift_add_mul` (R150) over `n` bit positions of `B` from `p` upward, with the accumulator, `tmp` and the
running shift counter `c`. -/
def mulLoop (B : List Limb) : (n p : Nat) → (acc tmp : List Limb) → (c : Nat) → List Limb
  | 0, _, acc, _, _ => acc
  | n + 1, p, acc, tmp, c =>
    if seqBit B p then
      mulLoop B n (p + 1) (chainAdd acc (shl tmp c)) (shl tmp c) 1
    else mulLoop B n (p + 1) acc tmp (c + 1)

/-- `shift_add_mul(A, B)` (R150): the bits 0 to `log2(B)` of `B`; a zero multiplier gives [0] (R152). -/
def shiftAddMul (A B : List Limb) : List Limb :=
  if val B = 0 then [0#32] else reduce (mulLoop B (bitlen (val B)) 0 [0#32] A 0)

/-- One pass of the divider's inner loop (R225): `den` doubled, moved up under `self` by the difference of the two `log2`,
halved once; the place `i` of the quotient bit and the moved `den`. The index is 0 when the doubled `den` exceeds
`self` (R227). -/
def strideSearch (self den : Nat) : Nat × Nat :=
  let den1 := den * 2
  if self ≥ den1 then
    let i := Nat.log2 self - Nat.log2 den1
    let den2 := den1 * 2 ^ i
    if self ≥ den2 then (i + 1, den2 * 2 / 2) else (i, den2 / 2)
  else (0, den1 / 2)

/-- The divider's inner loop "While self ≥ den" (R225), at most `fuel` passes. A pass sets bit `i` of `result`, takes the
moved `den` from `self`, and shifts `den` right by `i`, which restores it. It answers `self`, `den` and `result`. -/
def divInner : (fuel self den result : Nat) → Nat × Nat × Nat
  | 0, self, den, result => (self, den, result)
  | fuel + 1, self, den, result =>
    if self ≥ den then
      match strideSearch self den with
      | (i, moved) => divInner fuel (self - moved) (moved / 2 ^ i) (result ||| 2 ^ i)
    else (self, den, result)

/-- The divider's outer loop (R225), `n` passes left: it ends when `self` is 0; each pass runs the inner loop, then
doubles `self`. The inner loop makes at most one pass for each bit of `self`. -/
def divOuter : (n self den result : Nat) → Nat
  | 0, _, _, result => result
  | n + 1, self, den, result =>
    if self = 0 then result
    else
      match divInner (bitlen self) self den result with
      | (self', den', result') => divOuter n (self' * 2) den' result'

/-- `frac_div(n, d, acc)` for `d > 0` (R225): the outer counter runs from 0 to `acc` (R227). -/
def fracDiv (n d acc : Nat) : Nat := divOuter (acc + 1) (n * 2 ^ acc) d 0

end Sys2Proof.Machine
end

