-- ==== Sys2Proof/Machine/BarrelShifter.lean ====
section
/-! DEFINITION. The barrel_shifter unit: SHLL, SHLLO, SHRL, SHRNL, VSHL, VSHR, VINV, VSETB, VCLRB, VTSTB (R166 to R175).
Where R285 gives a command's capacity condition by its count, the condition is tested before the work (log entry 8). -/

namespace Sys2Proof.Machine

/-- What SHLL and SHLLO share: a count of 32 or more is OperandRange, else the shifted limb to `x[xd]` and the overflow to
`OV` (R166, R167). -/
def shiftLimbLeft (i : Instr) (xd xs : XReg) (ovIn : Limb) (b : Block) : Block :=
  if shiftCountLegal (b.countX xs) then
    (b.writeX xd (shlStep (b.readX xd) (b.countX xs) ovIn).1).writeOV
      (shlStep (b.readX xd) (b.countX xs) ovIn).2
  else raise i .operandRange b

/-- SHLL (R166): overflow in 0. -/
def Block.shll (xd xs : XReg) (b : Block) : Block := shiftLimbLeft (.shll xd xs) xd xs 0#32 b

/-- SHLL on the machine's state: the block takes its rule (R41). -/
def execShll (xd xs : XReg) (s : State) : Result := .next (s.withBlock (Block.shll xd xs s.toBlock))

/-- SHLLO (R167): overflow in from `OV`. -/
def Block.shllo (xd xs : XReg) (b : Block) : Block := shiftLimbLeft (.shllo xd xs) xd xs b.ov b

/-- SHLLO on the machine's state: the block takes its rule (R41). -/
def execShllo (xd xs : XReg) (s : State) : Result := .next (s.withBlock (Block.shllo xd xs s.toBlock))

/-- SHRL (R168): a logical shift; `OV` is not touched. -/
def Block.shrl (xd xs : XReg) (b : Block) : Block :=
  if shiftCountLegal (b.countX xs) then b.writeX xd (b.readX xd >>> b.countX xs)
  else raise (.shrl xd xs) .operandRange b

/-- SHRL on the machine's state: the block takes its rule (R41). -/
def execShrl (xd xs : XReg) (s : State) : Result := .next (s.withBlock (Block.shrl xd xs s.toBlock))

/-- SHRNL (R169): the low bits of `x[xt]` shifted in. -/
def Block.shrnl (xd xs xt : XReg) (b : Block) : Block :=
  if shiftCountLegal (b.countX xs) then b.writeX xd (shrStep (b.readX xd) (b.readX xt) (b.countX xs))
  else raise (.shrnl xd xs xt) .operandRange b

/-- SHRNL on the machine's state: the block takes its rule (R41). -/
def execShrnl (xd xs xt : XReg) (s : State) : Result := .next (s.withBlock (Block.shrnl xd xs xt s.toBlock))

/-- VSHL (R170): zero stays [0] for every count; else CapacityOverflow when the width and the count together pass
`32 * CAP`. -/
def Block.vshl (cap : Nat) (vd : VReg) (xs : XReg) (b : Block) : Block :=
  if val (b.readV vd) = 0 then b.writeV vd [0#32]
  else if fitsBits cap (bitlen (val (b.readV vd)) + b.countX xs) then
    b.writeV vd (shl (b.readV vd) (b.countX xs))
  else raise (.vshl vd xs) .capacityOverflow b

/-- VSHL on the machine's state: the block takes its rule, with CAP (R41). -/
def execVshl (vd : VReg) (xs : XReg) (s : State) : Result := .next (s.withBlock (Block.vshl s.cap vd xs s.toBlock))

/-- VSHR (R171): any count; never CapacityOverflow. -/
def Block.vshr (vd : VReg) (xs : XReg) (b : Block) : Block := b.writeV vd (shr (b.readV vd) (b.countX xs))

/-- VSHR on the machine's state: the block takes its rule (R41). -/
def execVshr (vd : VReg) (xs : XReg) (s : State) : Result := .next (s.withBlock (Block.vshr vd xs s.toBlock))

/-- VINV (R172): CapacityOverflow when the window is wider than the register. -/
def Block.vinv (cap : Nat) (vd : VReg) (xs : XReg) (b : Block) : Block :=
  if fitsBits cap (b.countX xs) then b.writeV vd (inv (b.readV vd) (b.countX xs))
  else raise (.vinv vd xs) .capacityOverflow b

/-- VINV on the machine's state: the block takes its rule, with CAP (R41). -/
def execVinv (vd : VReg) (xs : XReg) (s : State) : Result := .next (s.withBlock (Block.vinv s.cap vd xs s.toBlock))

/-- VSETB (R173): CapacityOverflow when the bit index is `32 * CAP` or more. -/
def Block.vsetb (cap : Nat) (vd : VReg) (xs : XReg) (b : Block) : Block :=
  if fitsBits cap (b.countX xs + 1) then b.writeV vd (setBit (b.readV vd) (b.countX xs))
  else raise (.vsetb vd xs) .capacityOverflow b

/-- VSETB on the machine's state: the block takes its rule, with CAP (R41). -/
def execVsetb (vd : VReg) (xs : XReg) (s : State) : Result := .next (s.withBlock (Block.vsetb s.cap vd xs s.toBlock))

/-- VCLRB (R174): an index above the value changes nothing. -/
def Block.vclrb (vd : VReg) (xs : XReg) (b : Block) : Block := b.writeV vd (clearBit (b.readV vd) (b.countX xs))

/-- VCLRB on the machine's state: the block takes its rule (R41). -/
def execVclrb (vd : VReg) (xs : XReg) (s : State) : Result := .next (s.withBlock (Block.vclrb vd xs s.toBlock))

/-- VTSTB (R175): an index above the top limb reads 0. -/
def Block.vtstb (vs : VReg) (xs : XReg) (b : Block) : Block := b.setT (seqBit (b.readV vs) (b.countX xs))

/-- VTSTB on the machine's state: the block takes its rule (R41). -/
def execVtstb (vs : VReg) (xs : XReg) (s : State) : Result := .next (s.withBlock (Block.vtstb vs xs s.toBlock))

end Sys2Proof.Machine
end

