-- ==== Sys2Proof/Machine/ComparisonUnit.lean ====
section
/-! DEFINITION. The comparison_unit: CMPL, VCMP, LOG2L, VLOG2 (R211 to R216). -/

namespace Sys2Proof.Machine

/-- CMPL (R211). -/
def Block.cmpl (xs xt : XReg) (b : Block) : Block := b.setCompare (cmp32 (b.readX xs) (b.readX xt))

/-- CMPL on the machine's state: the block takes its rule (R41). -/
def execCmpl (xs xt : XReg) (s : State) : Result := .next (s.withBlock (Block.cmpl xs xt s.toBlock))

/-- VCMP (R213); neither operand is written. -/
def Block.vcmp (vd vs : VReg) (b : Block) : Block := b.setCompare (cmp (b.readV vd) (b.readV vs))

/-- VCMP on the machine's state: the block takes its rule (R41). -/
def execVcmp (vd vs : VReg) (s : State) : Result := .next (s.withBlock (Block.vcmp vd vs s.toBlock))

/-- LOG2L (R215). -/
def Block.log2l (xd xs : XReg) (b : Block) : Block :=
  if b.readX xs = 0#32 then raise (.log2l xd xs) .zeroOperand b
  else b.writeX xd (ofCount (topBit32 (b.readX xs)))

/-- LOG2L on the machine's state: the block takes its rule (R41). -/
def execLog2l (xd xs : XReg) (s : State) : Result := .next (s.withBlock (Block.log2l xd xs s.toBlock))

/-- VLOG2 (R216). -/
def Block.vlog2 (xd : XReg) (vs : VReg) (b : Block) : Block :=
  if val (b.readV vs) = 0 then raise (.vlog2 xd vs) .zeroOperand b
  else b.writeX xd (ofCount (seqLog2 (b.readV vs)))

/-- VLOG2 on the machine's state: the block takes its rule (R41). -/
def execVlog2 (xd : XReg) (vs : VReg) (s : State) : Result := .next (s.withBlock (Block.vlog2 xd vs s.toBlock))

end Sys2Proof.Machine
end

