-- ==== Sys2Proof/Machine/DataMovement.lean ====
section
/-! DEFINITION. The data movement and construction commands, R110 to R118. -/

namespace Sys2Proof.Machine

/-- LDI (R110). -/
def Block.ldi (xd : XReg) (imm16 : BitVec 16) (b : Block) : Block := b.writeX xd (immLow imm16)

/-- LDI on the machine's state: the block takes its rule (R41). -/
def execLdi (xd : XReg) (imm16 : BitVec 16) (s : State) : Result := .next (s.withBlock (Block.ldi xd imm16 s.toBlock))

/-- LDIH (R111): the lower half is kept. -/
def Block.ldih (xd : XReg) (imm16 : BitVec 16) (b : Block) : Block := b.writeX xd (immHigh imm16 (b.readX xd))

/-- LDIH on the machine's state: the block takes its rule (R41). -/
def execLdih (xd : XReg) (imm16 : BitVec 16) (s : State) : Result :=
  .next (s.withBlock (Block.ldih xd imm16 s.toBlock))

/-- MFOV (R112); OV is not changed by being read. -/
def Block.mfov (xd : XReg) (b : Block) : Block := b.writeX xd b.ov

/-- MFOV on the machine's state: the block takes its rule (R41). -/
def execMfov (xd : XReg) (s : State) : Result := .next (s.withBlock (Block.mfov xd s.toBlock))

/-- VSET (R113). -/
def Block.vset (vd : VReg) (xs : XReg) (b : Block) : Block := b.writeV vd [b.readX xs]

/-- VSET on the machine's state: the block takes its rule (R41). -/
def execVset (vd : VReg) (xs : XReg) (s : State) : Result := .next (s.withBlock (Block.vset vd xs s.toBlock))

/-- VSET64 (R114): limb 1 receives the high 32 bits if they are nonzero. -/
def Block.vset64 (vd : VReg) (xs xt : XReg) (b : Block) : Block :=
  if b.readX xt = 0#32 then b.writeV vd [b.readX xs]
  else b.writeV vd [b.readX xs, b.readX xt]

/-- VSET64 on the machine's state: the block takes its rule (R41). -/
def execVset64 (vd : VReg) (xs xt : XReg) (s : State) : Result :=
  .next (s.withBlock (Block.vset64 vd xs xt s.toBlock))

/-- VMOV (R115). -/
def Block.vmov (vd vs : VReg) (b : Block) : Block := b.writeV vd (b.readV vs)

/-- VMOV on the machine's state: the block takes its rule (R41). -/
def execVmov (vd vs : VReg) (s : State) : Result := .next (s.withBlock (Block.vmov vd vs s.toBlock))

/-- VLEN (R116). -/
def Block.vlen (xd : XReg) (vs : VReg) (b : Block) : Block := b.writeX xd (ofCount (b.readV vs).length)

/-- VLEN on the machine's state: the block takes its rule (R41). -/
def execVlen (xd : XReg) (vs : VReg) (s : State) : Result := .next (s.withBlock (Block.vlen xd vs s.toBlock))

/-- VGETL (R117): a limb index at or above the length is OperandRange. -/
def Block.vgetl (xd : XReg) (vs : VReg) (xs : XReg) (b : Block) : Block :=
  if readIndexLegal (b.readV vs) (b.countX xs) then
    b.writeX xd ((b.readV vs).getD (b.countX xs) 0#32)
  else raise (.vgetl xd vs xs) .operandRange b

/-- VGETL on the machine's state: the block takes its rule (R41). -/
def execVgetl (xd : XReg) (vs : VReg) (xs : XReg) (s : State) : Result :=
  .next (s.withBlock (Block.vgetl xd vs xs s.toBlock))

/-- VPUTL's new sequence before the reduce (R118): limb `j` replaced, or appended when `j` is the length. -/
def putLimb (L : List Limb) (j : Nat) (l : Limb) : List Limb := if j < L.length then L.set j l else L ++ [l]

/-- VPUTL (R118): a limb index above the length is OperandRange; the capacity test is on the reduced result. -/
def Block.vputl (cap : Nat) (vd : VReg) (xs xt : XReg) (b : Block) : Block :=
  if writeIndexLegal (b.readV vd) (b.countX xs) then
    commitV cap (.vputl vd xs xt) vd (reduce (putLimb (b.readV vd) (b.countX xs) (b.readX xt))) b
  else raise (.vputl vd xs xt) .operandRange b

/-- VPUTL on the machine's state: the block takes its rule, with CAP (R41). -/
def execVputl (vd : VReg) (xs xt : XReg) (s : State) : Result :=
  .next (s.withBlock (Block.vputl s.cap vd xs xt s.toBlock))

end Sys2Proof.Machine
end

