-- ==== Sys2Proof/Machine/IntegerDivider.lean ====
section
/-! DEFINITION. The integer_divider unit: VDIV (R226). -/

namespace Sys2Proof.Machine

/-- The width of the divider's widest working value, `max(bitlen(n) + acc, bitlen(d)) + 1` (R229). -/
def divWidth (n d acc : Nat) : Nat := max (bitlen n + acc) (bitlen d) + 1

/-- VDIV (R226): DivideByZero first, then for a numerator that is not zero the capacity test of R229; a zero numerator
makes no loop pass. `x[xd]` receives the accuracy. -/
def Block.vdiv (cap : Nat) (xd : XReg) (vd vs : VReg) (xs : XReg) (b : Block) : Block :=
  let n := val (b.readV vd)
  let d := val (b.readV vs)
  let acc := b.countX xs
  if d = 0 then raise (.vdiv xd vd vs xs) .divideByZero b
  else if n = 0 then (b.writeV vd [0#32]).writeX xd (b.readX xs)
  else if fitsBits cap (divWidth n d acc) then
    (b.writeV vd (limbs (fracDiv n d acc))).writeX xd (b.readX xs)
  else raise (.vdiv xd vd vs xs) .capacityOverflow b

/-- VDIV on the machine's state: the block takes its rule, with CAP (R41). -/
def execVdiv (xd : XReg) (vd vs : VReg) (xs : XReg) (s : State) : Result :=
  .next (s.withBlock (Block.vdiv s.cap xd vd vs xs s.toBlock))

end Sys2Proof.Machine
end

