-- ==== Sys2Proof/Machine/LimbAdder.lean ====
section
/-! DEFINITION. The limb_adder unit: ADDL, ADCL, VADD, VADDS, VSUB (R131 to R136). -/

namespace Sys2Proof.Machine

/-- What ADDL and ADCL share: the sum limb to `x[xd]`, the carry out to `C` (R131, R132). -/
def addLimbs (xd xs : XReg) (cin : Bool) (b : Block) : Block :=
  (b.writeX xd (limbAdd (b.readX xd) (b.readX xs) cin).1).setC (limbAdd (b.readX xd) (b.readX xs) cin).2

/-- ADDL (R131): carry in 0. -/
def Block.addl (xd xs : XReg) (b : Block) : Block := addLimbs xd xs false b

/-- ADDL on the machine's state: the block takes its rule (R41). -/
def execAddl (xd xs : XReg) (s : State) : Result := .next (s.withBlock (Block.addl xd xs s.toBlock))

/-- ADCL (R132): carry in from `C`. -/
def Block.adcl (xd xs : XReg) (b : Block) : Block := addLimbs xd xs b.flagC b

/-- ADCL on the machine's state: the block takes its rule (R41). -/
def execAdcl (xd xs : XReg) (s : State) : Result := .next (s.withBlock (Block.adcl xd xs s.toBlock))

/-- VADD (R134). -/
def Block.vadd (cap : Nat) (vd vs : VReg) (b : Block) : Block :=
  commitV cap (.vadd vd vs) vd (chainAdd (b.readV vd) (b.readV vs)) b

/-- VADD on the machine's state: the block takes its rule, with CAP (R41). -/
def execVadd (vd vs : VReg) (s : State) : Result := .next (s.withBlock (Block.vadd s.cap vd vs s.toBlock))

/-- VADDS (R135): the scalar is limb 0 of a one-limb operand. -/
def Block.vadds (cap : Nat) (vd : VReg) (xs : XReg) (b : Block) : Block :=
  commitV cap (.vadds vd xs) vd (chainAdd (b.readV vd) [b.readX xs]) b

/-- VADDS on the machine's state: the block takes its rule, with CAP (R41). -/
def execVadds (vd : VReg) (xs : XReg) (s : State) : Result := .next (s.withBlock (Block.vadds s.cap vd xs s.toBlock))

/-- VSUB (R136): the absolute difference; it never raises CapacityOverflow. -/
def Block.vsub (vd vs : VReg) (b : Block) : Block := b.writeV vd (absDiff (b.readV vd) (b.readV vs))

/-- VSUB on the machine's state: the block takes its rule (R41). -/
def execVsub (vd vs : VReg) (s : State) : Result := .next (s.withBlock (Block.vsub vd vs s.toBlock))

end Sys2Proof.Machine
end

