-- ==== Sys2Proof/Machine/LimbMultiplier.lean ====
section
/-! DEFINITION. The limb_multiplier unit: MULL, VMUL, VMULS (R151 to R154). -/

namespace Sys2Proof.Machine

/-- MULL (R151): the low half of the product to `x[xd]`, the high half to `OV`. -/
def Block.mull (xd xs : XReg) (b : Block) : Block :=
  (b.writeX xd ((limbProduct (b.readX xd) (b.readX xs)).extractLsb' 0 32)).writeOV
    ((limbProduct (b.readX xd) (b.readX xs)).extractLsb' 32 32)

/-- MULL on the machine's state: the block takes its rule (R41). -/
def execMull (xd xs : XReg) (s : State) : Result := .next (s.withBlock (Block.mull xd xs s.toBlock))

/-- VMUL (R153): the bits of `V[vs]` are traversed. -/
def Block.vmul (cap : Nat) (vd vs : VReg) (b : Block) : Block :=
  commitV cap (.vmul vd vs) vd (shiftAddMul (b.readV vd) (b.readV vs)) b

/-- VMUL on the machine's state: the block takes its rule, with CAP (R41). -/
def execVmul (vd vs : VReg) (s : State) : Result := .next (s.withBlock (Block.vmul s.cap vd vs s.toBlock))

/-- VMULS (R154): the multiplier is a 32 bit scalar. -/
def Block.vmuls (cap : Nat) (vd : VReg) (xs : XReg) (b : Block) : Block :=
  commitV cap (.vmuls vd xs) vd (shiftAddMul (b.readV vd) [b.readX xs]) b

/-- VMULS on the machine's state: the block takes its rule, with CAP (R41). -/
def execVmuls (vd : VReg) (xs : XReg) (s : State) : Result := .next (s.withBlock (Block.vmuls s.cap vd xs s.toBlock))

end Sys2Proof.Machine
end

