-- ==== Sys2Proof/Machine/NormalizerShifter.lean ====
section
/-! DEFINITION. The normalizer_shifter unit: CTZL, VLAL, VRAL (R197 to R199). Reduce is part of every command (R195). -/

namespace Sys2Proof.Machine

/-- CTZL (R197). -/
def Block.ctzl (xd xs : XReg) (b : Block) : Block :=
  if b.readX xs = 0#32 then raise (.ctzl xd xs) .zeroOperand b
  else b.writeX xd (ofCount (ctz32 (b.readX xs)))

/-- CTZL on the machine's state: the block takes its rule (R41). -/
def execCtzl (xd xs : XReg) (s : State) : Result := .next (s.withBlock (Block.ctzl xd xs s.toBlock))

/-- The left-align amount `31 - p`, with `p` the place of the highest set bit within the last limb (R198; the printed
formula is set aside by C1 of 90_conflicts.md). -/
def leftAlignAmount (L : List Limb) : Nat := 31 - (seqLog2 L - 32 * (L.length - 1))

/-- VLAL (R198): zero is left as it is and returns 0. -/
def Block.vlal (xd : XReg) (vd : VReg) (b : Block) : Block :=
  if val (b.readV vd) = 0 then b.writeX xd 0#32
  else (b.writeV vd (shl (b.readV vd) (leftAlignAmount (b.readV vd)))).writeX xd
    (ofCount (leftAlignAmount (b.readV vd)))

/-- VLAL on the machine's state: the block takes its rule (R41). -/
def execVlal (xd : XReg) (vd : VReg) (s : State) : Result := .next (s.withBlock (Block.vlal xd vd s.toBlock))

/-- The limbs from limb 0 upward that are 0 before the first non-zero limb, counted (R199). -/
def lowZeroLimbs (L : List Limb) : Nat := (L.takeWhile fun l => l == 0#32).length

/-- `V[vd]` without its lowest zero limbs (R199). -/
def dropLowZeros (L : List Limb) : List Limb := L.dropWhile fun l => l == 0#32

/-- VRAL (R199): zero is left as it is and returns 0. -/
def Block.vral (xd : XReg) (vd : VReg) (b : Block) : Block :=
  if val (b.readV vd) = 0 then b.writeX xd 0#32
  else
    let M := dropLowZeros (b.readV vd)
    let t := ctz32 (M.headD 0#32)
    (b.writeV vd (shr M t)).writeX xd (ofCount (32 * lowZeroLimbs (b.readV vd) + t))

/-- VRAL on the machine's state: the block takes its rule (R41). -/
def execVral (xd : XReg) (vd : VReg) (s : State) : Result := .next (s.withBlock (Block.vral xd vd s.toBlock))

end Sys2Proof.Machine
end

