-- ==== Sys2Proof/Machine/Dispatch.lean ====
section
/-! DEFINITION. The meaning of every command, one arm each (R291). -/

namespace Sys2Proof.Machine

def exec (i : Instr) (s : State) : Host.Outcome State Fault Refusal :=
  match i with
  | .ldi xd imm16 => Sys2Proof.Machine.execLdi xd imm16 s
  | .ldih xd imm16 => Sys2Proof.Machine.execLdih xd imm16 s
  | .vset vd xs => Sys2Proof.Machine.execVset vd xs s
  | .vset64 vd xs xt => Sys2Proof.Machine.execVset64 vd xs xt s
  | .vmov vd vs => Sys2Proof.Machine.execVmov vd vs s
  | .vlen xd vs => Sys2Proof.Machine.execVlen xd vs s
  | .vgetl xd vs xs => Sys2Proof.Machine.execVgetl xd vs xs s
  | .vputl vd xs xt => Sys2Proof.Machine.execVputl vd xs xt s
  | .mfov xd => Sys2Proof.Machine.execMfov xd s
  | .addl xd xs => Sys2Proof.Machine.execAddl xd xs s
  | .adcl xd xs => Sys2Proof.Machine.execAdcl xd xs s
  | .vadd vd vs => Sys2Proof.Machine.execVadd vd vs s
  | .vadds vd xs => Sys2Proof.Machine.execVadds vd xs s
  | .vsub vd vs => Sys2Proof.Machine.execVsub vd vs s
  | .mull xd xs => Sys2Proof.Machine.execMull xd xs s
  | .vmul vd vs => Sys2Proof.Machine.execVmul vd vs s
  | .vmuls vd xs => Sys2Proof.Machine.execVmuls vd xs s
  | .shll xd xs => Sys2Proof.Machine.execShll xd xs s
  | .shllo xd xs => Sys2Proof.Machine.execShllo xd xs s
  | .shrl xd xs => Sys2Proof.Machine.execShrl xd xs s
  | .shrnl xd xs xt => Sys2Proof.Machine.execShrnl xd xs xt s
  | .vshl vd xs => Sys2Proof.Machine.execVshl vd xs s
  | .vshr vd xs => Sys2Proof.Machine.execVshr vd xs s
  | .vinv vd xs => Sys2Proof.Machine.execVinv vd xs s
  | .vsetb vd xs => Sys2Proof.Machine.execVsetb vd xs s
  | .vclrb vd xs => Sys2Proof.Machine.execVclrb vd xs s
  | .vtstb vs xs => Sys2Proof.Machine.execVtstb vs xs s
  | .ctzl xd xs => Sys2Proof.Machine.execCtzl xd xs s
  | .vlal xd vd => Sys2Proof.Machine.execVlal xd vd s
  | .vral xd vd => Sys2Proof.Machine.execVral xd vd s
  | .cmpl xs xt => Sys2Proof.Machine.execCmpl xs xt s
  | .vcmp vd vs => Sys2Proof.Machine.execVcmp vd vs s
  | .log2l xd xs => Sys2Proof.Machine.execLog2l xd xs s
  | .vlog2 xd vs => Sys2Proof.Machine.execVlog2 xd vs s
  | .vdiv xd vd vs xs => Sys2Proof.Machine.execVdiv xd vd vs xs s

end Sys2Proof.Machine
end

