-- ==== Sys2Proof/Machine/Transactions.lean ====
section
/-! DEFINITION. The host's three transactions (R296): Issue by the step function of R291, Observe by the table of R42, and
Reset. -/

namespace Sys2Proof.Machine

/-- Issue(cmd) (R298), the step of R291 through exec: while `F = 1` the word is discarded and not decoded (R290); a word
that is no command is ReservedEncoding (R281); a command has its rule's effect. `Block.step` of Machine/BlockStep.lean is
the same step over the block alone. -/
def issue (cmd : Word) (s : State) : Result :=
  if s.flagF then .next s
  else
    match decode cmd with
    | .reservedEncoding => .next (faultEntry .reservedEncoding cmd s)
    | .command i => exec i s

/-- `Observe(selector)` by the table of R42; any other selector returns 0. -/
def Block.observe (b : Block) (selector : Nat) : Word :=
  if selector < 0x08 then b.readX (Fin.ofNat 8 selector)
  else if selector = 0x10 then b.status
  else if selector = 0x11 then b.cause
  else if selector = 0x12 then b.fcmd
  else if selector = 0x13 then b.ov
  else if 0x20 ≤ selector ∧ selector < 0x28 then ofCount (b.readV (Fin.ofNat 8 (selector - 0x20))).length
  else 0#32

/-- `Observe(selector, j)` by the table of R42: limb `j` of a BigNat register, 0 at and above the length. The other
selectors take no limb index and return what they return without one (log entry 6). -/
def Block.observeLimb (b : Block) (selector j : Nat) : Word :=
  if 0x40 ≤ selector ∧ selector < 0x48 then (b.readV (Fin.ofNat 8 (selector - 0x40))).getD j 0#32
  else b.observe selector

/-- One transaction (R296). Issue and Reset return nothing (R298, R299); Observe returns a value and changes nothing
(R297). -/
def transact (t : Transaction) (s : State) : Result :=
  match t with
  | .issue cmd => issue cmd { s with reply := none }
  | .observe selector => .next { s with reply := some (s.observe selector) }
  | .observeLimb selector j => .next { s with reply := some (s.observeLimb selector j) }
  | .reset => .next (resetBlock { s with reply := none })

/-- The next transaction taken from the host's list and done; with nothing asked the block is idle (R292, R295; log
entries 1 and 4). -/
def nextTransaction (s : State) : Result :=
  match s.pending with
  | [] => .next s
  | t :: rest => transact t { s with pending := rest }

/-- Issue(cmd) put before everything the host was going to ask (R298; log entry 7). -/
def State.withIssue (s : State) (cmd : Word) : State := { s with pending := .issue cmd :: s.pending }

end Sys2Proof.Machine
end

