-- ==== Sys2Proof/Machine/Step.lean ====
section
/-! DEFINITION. One step of the machine: one transaction of the host (R15, R296). -/

namespace Sys2Proof.Machine

/-- One step: the host's next transaction. -/
def step (s : State) : Host.Outcome State Fault Refusal := nextTransaction s

/-- `s` with the command word `w` issued next, so that the very next step runs it (log entry 7). -/
def State.withFetchWord (s : State) (nbits w : Nat) : State := s.withIssue (BitVec.ofNat 32 (w % 2 ^ nbits))

end Sys2Proof.Machine
end

