-- ==== Sys2Proof/Machine/Assembler.lean ====
section
/-! DEFINITION. The assembler syntax of R91 and the pseudo-command LI32 of R92. The host uses it to write programs down; no
step of the block depends on it. A line is a list of characters. -/

namespace Sys2Proof.Machine

/-- An operand of assembler text (R91). -/
inductive Operand where
  /-- A scalar register, `x0` to `x7`. -/
  | x (r : XReg)
  /-- A BigNat register, `V0` to `V7`. -/
  | v (r : VReg)
  /-- An immediate. -/
  | imm (n : Nat)
  deriving DecidableEq, Repr

/-- A decimal digit. -/
def decDigit (c : Char) : Option Nat := if '0' ≤ c ∧ c ≤ '9' then some (c.toNat - '0'.toNat) else none

/-- A hexadecimal digit, in either letter case (log entry 11). -/
def hexDigit (c : Char) : Option Nat :=
  if 'a' ≤ c ∧ c ≤ 'f' then some (c.toNat - 'a'.toNat + 10)
  else if 'A' ≤ c ∧ c ≤ 'F' then some (c.toNat - 'A'.toNat + 10)
  else decDigit c

/-- The number that digits write in a base, on top of what stands before them. -/
def digitsFrom (base : Nat) (digit : Char → Option Nat) : List Char → Nat → Option Nat
  | [], n => some n
  | c :: cs, n =>
    match digit c with
    | some d => digitsFrom base digit cs (n * base + d)
    | none => none

/-- "a decimal number or a `0x` hexadecimal number" (R91), at least one digit. -/
def parseNumber : List Char → Option Nat
  | '0' :: 'x' :: c :: cs => digitsFrom 16 hexDigit (c :: cs) 0
  | '0' :: 'x' :: [] => none
  | [] => none
  | c :: cs => digitsFrom 10 decDigit (c :: cs) 0

/-- A register number, one digit 0 to 7 (R91). -/
def parseReg (c : Char) : Option (Fin 8) :=
  match decDigit c with
  | some n => if n < 8 then some (Fin.ofNat 8 n) else none
  | none => none

/-- One operand (R91). -/
def parseOperand : List Char → Option Operand
  | ['x', c] => (parseReg c).map .x
  | ['V', c] => (parseReg c).map .v
  | cs => (parseNumber cs).map .imm

/-- The text cut at each comma and space (R91), the pieces in order. -/
def splitOperands : List Char → List Char → List (List Char)
  | [], piece => [piece.reverse]
  | ',' :: ' ' :: cs, piece => piece.reverse :: splitOperands cs []
  | c :: cs, piece => splitOperands cs (c :: piece)

/-- All pieces as operands, or none when one is no operand. -/
def parseOperands : List (List Char) → Option (List Operand)
  | [] => some []
  | p :: ps =>
    match parseOperand p, parseOperands ps with
    | some o, some os => some (o :: os)
    | _, _ => none

/-- The mnemonic of a command (R86). -/
def mnemonic : Instr → String
  | .ldi _ _ => "LDI" | .ldih _ _ => "LDIH" | .vset _ _ => "VSET" | .vset64 _ _ _ => "VSET64"
  | .vmov _ _ => "VMOV" | .vlen _ _ => "VLEN" | .vgetl _ _ _ => "VGETL" | .vputl _ _ _ => "VPUTL"
  | .mfov _ => "MFOV" | .addl _ _ => "ADDL" | .adcl _ _ => "ADCL" | .vadd _ _ => "VADD"
  | .vadds _ _ => "VADDS" | .vsub _ _ => "VSUB" | .mull _ _ => "MULL" | .vmul _ _ => "VMUL"
  | .vmuls _ _ => "VMULS" | .shll _ _ => "SHLL" | .shllo _ _ => "SHLLO" | .shrl _ _ => "SHRL"
  | .shrnl _ _ _ => "SHRNL" | .vshl _ _ => "VSHL" | .vshr _ _ => "VSHR" | .vinv _ _ => "VINV"
  | .vsetb _ _ => "VSETB" | .vclrb _ _ => "VCLRB" | .vtstb _ _ => "VTSTB" | .ctzl _ _ => "CTZL"
  | .vlal _ _ => "VLAL" | .vral _ _ => "VRAL" | .cmpl _ _ => "CMPL" | .vcmp _ _ => "VCMP"
  | .log2l _ _ => "LOG2L" | .vlog2 _ _ => "VLOG2" | .vdiv _ _ _ _ => "VDIV"

/-- A command's operands in the order of the "asm operands" column of R86. -/
def operands : Instr → List Operand
  | .ldi xd i | .ldih xd i => [.x xd, .imm i.toNat]
  | .vset vd xs | .vadds vd xs | .vmuls vd xs | .vshl vd xs | .vshr vd xs | .vinv vd xs | .vsetb vd xs
  | .vclrb vd xs | .vtstb vd xs => [.v vd, .x xs]
  | .vset64 vd xs xt | .vputl vd xs xt => [.v vd, .x xs, .x xt]
  | .vmov vd vs | .vadd vd vs | .vsub vd vs | .vmul vd vs | .vcmp vd vs => [.v vd, .v vs]
  | .vlen xd vs | .vlog2 xd vs | .vlal xd vs | .vral xd vs => [.x xd, .v vs]
  | .vgetl xd vs xs => [.x xd, .v vs, .x xs]
  | .mfov xd => [.x xd]
  | .addl xd xs | .adcl xd xs | .mull xd xs | .shll xd xs | .shllo xd xs | .shrl xd xs | .ctzl xd xs
  | .cmpl xd xs | .log2l xd xs => [.x xd, .x xs]
  | .shrnl xd xs xt => [.x xd, .x xs, .x xt]
  | .vdiv xd vd vs xs => [.x xd, .v vd, .v vs, .x xs]

/-- The command of a row whose mnemonic the text gives, among the commands with operands of one shape. -/
def pickCommand (name : List Char) (cs : List Instr) : Option (List Instr) :=
  (cs.find? fun i => (mnemonic i).toList == name).map fun i => [i]

/-- `LI32 xd, imm32` (R92): LDI of the low half, then LDIH of the high half. -/
def expandLi32 (xd : XReg) (imm32 : BitVec 32) : List Instr :=
  [.ldi xd (imm32.extractLsb' 0 16), .ldih xd (imm32.extractLsb' 16 16)]

/-- A mnemonic with its operands as commands: one command, or the two of LI32 (R86, R91, R92). -/
def assembleCommand (name : List Char) (ops : List Operand) : Option (List Instr) :=
  match ops with
  | [.x a, .imm n] =>
    if name = "LI32".toList then
      if n < 2 ^ 32 then some (expandLi32 a (BitVec.ofNat 32 n)) else none
    else if n < 2 ^ 16 then pickCommand name [.ldi a (BitVec.ofNat 16 n), .ldih a (BitVec.ofNat 16 n)]
    else none
  | [.v d, .x s] =>
    pickCommand name [.vset d s, .vadds d s, .vmuls d s, .vshl d s, .vshr d s, .vinv d s, .vsetb d s, .vclrb d s,
      .vtstb d s]
  | [.v d, .x s, .x t] => pickCommand name [.vset64 d s t, .vputl d s t]
  | [.v d, .v s] => pickCommand name [.vmov d s, .vadd d s, .vsub d s, .vmul d s, .vcmp d s]
  | [.x d, .v s] => pickCommand name [.vlen d s, .vlog2 d s, .vlal d s, .vral d s]
  | [.x d, .v s, .x t] => pickCommand name [.vgetl d s t]
  | [.x d] => pickCommand name [.mfov d]
  | [.x d, .x s] =>
    pickCommand name [.addl d s, .adcl d s, .mull d s, .shll d s, .shllo d s, .shrl d s, .ctzl d s, .cmpl d s,
      .log2l d s]
  | [.x d, .x s, .x t] => pickCommand name [.shrnl d s t]
  | [.x d, .v a, .v b, .x s] => pickCommand name [.vdiv d a b s]
  | _ => none

/-- Text after `;` is a comment (R91); the spaces before it are dropped with it (log entry 11). -/
def stripComment (line : List Char) : List Char :=
  ((line.takeWhile fun c => c != ';').reverse.dropWhile fun c => c == ' ').reverse

/-- One line of assembler text (R91): no command on an empty line, else a mnemonic, a space and its operands. -/
def assembleLine (line : List Char) : Option (List Instr) :=
  match stripComment line with
  | [] => some []
  | text =>
    match parseOperands (splitOperands ((text.dropWhile fun c => c != ' ').drop 1) []) with
    | some ops => assembleCommand (text.takeWhile fun c => c != ' ') ops
    | none => none

end Sys2Proof.Machine
end

