-- ==== Sys2Proof/Machine/BlockStep.lean ====
section
/-! DEFINITION. The step function of R291 over the block's own state (R20). CAP and the command word are its arguments
(R6, R41); it keeps no history (R41). -/

namespace Sys2Proof.Machine

/-- The rule of each command. -/
def Block.exec (cap : Nat) (i : Instr) (b : Block) : Block :=
  match i with
  | .ldi xd imm16 => b.ldi xd imm16
  | .ldih xd imm16 => b.ldih xd imm16
  | .vset vd xs => b.vset vd xs
  | .vset64 vd xs xt => b.vset64 vd xs xt
  | .vmov vd vs => b.vmov vd vs
  | .vlen xd vs => b.vlen xd vs
  | .vgetl xd vs xs => b.vgetl xd vs xs
  | .vputl vd xs xt => b.vputl cap vd xs xt
  | .mfov xd => b.mfov xd
  | .addl xd xs => b.addl xd xs
  | .adcl xd xs => b.adcl xd xs
  | .vadd vd vs => b.vadd cap vd vs
  | .vadds vd xs => b.vadds cap vd xs
  | .vsub vd vs => b.vsub vd vs
  | .mull xd xs => b.mull xd xs
  | .vmul vd vs => b.vmul cap vd vs
  | .vmuls vd xs => b.vmuls cap vd xs
  | .shll xd xs => b.shll xd xs
  | .shllo xd xs => b.shllo xd xs
  | .shrl xd xs => b.shrl xd xs
  | .shrnl xd xs xt => b.shrnl xd xs xt
  | .vshl vd xs => b.vshl cap vd xs
  | .vshr vd xs => b.vshr vd xs
  | .vinv vd xs => b.vinv cap vd xs
  | .vsetb vd xs => b.vsetb cap vd xs
  | .vclrb vd xs => b.vclrb vd xs
  | .vtstb vs xs => b.vtstb vs xs
  | .ctzl xd xs => b.ctzl xd xs
  | .vlal xd vd => b.vlal xd vd
  | .vral xd vd => b.vral xd vd
  | .cmpl xs xt => b.cmpl xs xt
  | .vcmp vd vs => b.vcmp vd vs
  | .log2l xd xs => b.log2l xd xs
  | .vlog2 xd vs => b.vlog2 xd vs
  | .vdiv xd vd vs xs => b.vdiv cap xd vd vs xs

/-- `step(s, cmd)` of R291: while `F = 1` the word is discarded and not decoded (R290); a word that is no command is
ReservedEncoding (R281); a command has its rule's effect. -/
def Block.step (cap : Nat) (b : Block) (cmd : Word) : Block :=
  if b.flagF then b
  else
    match decode cmd with
    | .reservedEncoding => b.faultEntry .reservedEncoding cmd
    | .command i => Block.exec cap i b

end Sys2Proof.Machine
end

