-- ==== Sys2Proof/Safety.lean ====
section
/-! DEFINITION. What counts as a legal state and a safe run, and the whole-machine tables of the spec in the terms the
claims use: who may write what (R22, R26, R28 to R32), who may raise what (R280, R286), and the results in value
terms. -/

namespace Sys2Proof.Machine

/-- The block has not faulted (R33). A run is safe while this holds. -/
def State.running (s : State) : Bool := !s.flagF

/-- One BigNat register keeps R24: not empty, reduced, at most CAP limbs. -/
def State.wfV (s : State) (r : VReg) : Bool := reducedForm (s.readV r) && decide ((s.readV r).length ≤ s.cap)

/-- Every BigNat register keeps R24. -/
abbrev State.wfSeqs (s : State) : Prop := ∀ r : VReg, s.wfV r = true

/-- CAP lies in the range of R6. -/
abbrev State.capLegal (s : State) : Prop := Config.minCap ≤ s.cap ∧ s.cap ≤ Config.maxCap

/-- STATUS is as R29 and R31 say: bits 30:4 are 0, and EQ and LT are never both 1. -/
abbrev State.statusLegal (s : State) : Prop :=
  s.status &&& reservedStatus = 0#32 ∧ ¬ (s.flagEQ = true ∧ s.flagLT = true)

/-- The fault record is as R34 and R35 say: with F = 0 both registers read 0; with F = 1 CAUSE is one of the codes 1 to
5. -/
abbrev State.recordLegal (s : State) : Prop :=
  (s.flagF = false → s.cause = 0#32 ∧ s.fcmd = 0#32) ∧ (s.flagF = true → 1 ≤ s.cause.toNat ∧ s.cause.toNat ≤ 5)

/-- The invariant of the block (R6, R24, R29, R31, R34, R35): true after reset and kept by every step. -/
abbrev State.Inv (s : State) : Prop := s.capLegal ∧ s.wfSeqs ∧ s.statusLegal ∧ s.recordLegal

/-- The scalar register a command writes, the "w" and "rw" entries of R22. -/
def writesX : Instr → Option XReg
  | .ldi xd _ | .ldih xd _ | .mfov xd | .vlen xd _ | .vgetl xd _ _ | .addl xd _ | .adcl xd _ | .mull xd _
  | .shll xd _ | .shllo xd _ | .shrl xd _ | .shrnl xd _ _ | .ctzl xd _ | .log2l xd _ | .vlal xd _ | .vral xd _
  | .vlog2 xd _ | .vdiv xd _ _ _ => some xd
  | .vset _ _ | .vset64 _ _ _ | .vmov _ _ | .vputl _ _ _ | .vadd _ _ | .vadds _ _ | .vsub _ _ | .vmul _ _
  | .vmuls _ _ | .vshl _ _ | .vshr _ _ | .vinv _ _ | .vsetb _ _ | .vclrb _ _ | .vtstb _ _ | .cmpl _ _
  | .vcmp _ _ => none

/-- The BigNat register a command writes, the "w" and "rw" entries of R26. -/
def writesV : Instr → Option VReg
  | .vset vd _ | .vset64 vd _ _ | .vmov vd _ | .vputl vd _ _ | .vadd vd _ | .vsub vd _ | .vmul vd _ | .vadds vd _
  | .vmuls vd _ | .vshl vd _ | .vshr vd _ | .vinv vd _ | .vsetb vd _ | .vclrb vd _ | .vlal _ vd | .vral _ vd
  | .vdiv _ vd _ _ => some vd
  | .ldi _ _ | .ldih _ _ | .mfov _ | .vlen _ _ | .vgetl _ _ _ | .addl _ _ | .adcl _ _ | .mull _ _ | .shll _ _
  | .shllo _ _ | .shrl _ _ | .shrnl _ _ _ | .vtstb _ _ | .ctzl _ _ | .cmpl _ _ | .vcmp _ _ | .log2l _ _
  | .vlog2 _ _ => none

/-- The commands that write OV (R28). -/
def writesOV : Instr → Bool
  | .mull _ _ | .shll _ _ | .shllo _ _ => true
  | _ => false

/-- The commands that write C (R30). -/
def writesC : Instr → Bool
  | .addl _ _ | .adcl _ _ => true
  | _ => false

/-- The commands that write EQ and LT (R31). -/
def writesCompare : Instr → Bool
  | .cmpl _ _ | .vcmp _ _ => true
  | _ => false

/-- The commands that write T (R32). -/
def writesT : Instr → Bool
  | .vtstb _ _ => true
  | _ => false

/-- The commands that read C (R30). -/
def readsC : Instr → Bool
  | .adcl _ _ => true
  | _ => false

/-- The commands that read OV (R28). -/
def readsOV : Instr → Bool
  | .shllo _ _ | .mfov _ => true
  | _ => false

/-- The scalar registers a command reads, the "r" and "rw" entries of R22. -/
def readsX : Instr → List XReg
  | .ldi _ _ | .mfov _ | .vmov _ _ | .vlen _ _ | .vadd _ _ | .vsub _ _ | .vmul _ _ | .vlal _ _ | .vral _ _
  | .vcmp _ _ | .vlog2 _ _ => []
  | .ldih xd _ => [xd]
  | .vset _ xs | .vgetl _ _ xs | .vadds _ xs | .vmuls _ xs | .vshl _ xs | .vshr _ xs | .vinv _ xs | .vsetb _ xs
  | .vclrb _ xs | .vtstb _ xs | .ctzl _ xs | .log2l _ xs | .vdiv _ _ _ xs => [xs]
  | .vset64 _ xs xt | .vputl _ xs xt | .cmpl xs xt => [xs, xt]
  | .addl xd xs | .adcl xd xs | .mull xd xs | .shll xd xs | .shllo xd xs | .shrl xd xs => [xd, xs]
  | .shrnl xd xs xt => [xd, xs, xt]

/-- The BigNat registers a command reads, the "r" and "rw" entries of R26. -/
def readsV : Instr → List VReg
  | .vmov _ vs | .vlen _ vs | .vgetl _ vs _ | .vtstb vs _ | .vlog2 _ vs => [vs]
  | .vputl vd _ _ | .vadds vd _ | .vmuls vd _ | .vshl vd _ | .vshr vd _ | .vinv vd _ | .vsetb vd _ | .vclrb vd _
  | .vlal _ vd | .vral _ vd => [vd]
  | .vadd vd vs | .vsub vd vs | .vmul vd vs | .vcmp vd vs | .vdiv _ vd vs _ => [vd, vs]
  | .ldi _ _ | .ldih _ _ | .mfov _ | .vset _ _ | .vset64 _ _ _ | .addl _ _ | .adcl _ _ | .mull _ _ | .shll _ _
  | .shllo _ _ | .shrl _ _ | .shrnl _ _ _ | .ctzl _ _ | .cmpl _ _ | .log2l _ _ => []

/-- The faults a decoded command can raise (R280, R286); ReservedEncoding belongs to words that are no command. -/
def mayRaise : Instr → List Cause
  | .shll _ _ | .shllo _ _ | .shrl _ _ | .shrnl _ _ _ | .vgetl _ _ _ => [.operandRange]
  | .vputl _ _ _ => [.operandRange, .capacityOverflow]
  | .ctzl _ _ | .log2l _ _ | .vlog2 _ _ => [.zeroOperand]
  | .vadd _ _ | .vadds _ _ | .vmul _ _ | .vmuls _ _ | .vshl _ _ | .vinv _ _ | .vsetb _ _ => [.capacityOverflow]
  | .vdiv _ _ _ _ => [.divideByZero, .capacityOverflow]
  | .ldi _ _ | .ldih _ _ | .mfov _ | .vset _ _ | .vset64 _ _ _ | .vmov _ _ | .vlen _ _ | .addl _ _ | .adcl _ _
  | .vsub _ _ | .mull _ _ | .vshr _ _ | .vclrb _ _ | .vtstb _ _ | .vlal _ _ | .vral _ _ | .cmpl _ _
  | .vcmp _ _ => []

/-- The value of a BigNat register (R11). -/
def Block.valV (b : Block) (r : VReg) : Nat := val (b.readV r)

/-- `|a - b|` on natural numbers (R136). -/
def natDiff (a b : Nat) : Nat := (a - b) + (b - a)

/-- `inv(v, n) = v ^ (2^n - 1)` on natural numbers (R172). -/
def invNat (v n : Nat) : Nat := v ^^^ (2 ^ n - 1)

/-- The divider's result in closed form (R228): the floor of `n * 2^acc / d`, its bit 0 set when a fraction bit among the
first `acc` is 1. -/
def divClosed (n d acc : Nat) : Nat :=
  (n * 2 ^ acc / d) ||| (if n * 2 ^ acc % d * 2 ^ acc ≥ d then 1 else 0)

end Sys2Proof.Machine
end

