-- ==== Sys2Proof/Certificates/Slice0/Obligations.lean ====
section
/-! DEFINITION. The statements for the provers. A next state is written as a record update of the old state, so what the
update does not name is unchanged: that is each command's frame. `putBit` changes one bit of STATUS and keeps the others.
`faultEntry k w s` is the state of R288; FaultEntryIsPrecise spells it out. -/

open Sys2Proof Sys2Proof.Machine

/-! ### Encoding -/

/-- R81, R82, R86: decoding the word of any command gives that command, with every operand at every value. -/
def Obligations.DecodeInvertsEncode : Prop := ∀ i : Instr, decode (encode i) = .command i

/-- R83, R88: a word that decodes to a command is that command's own word, no bit of it dropped; so the word a fault records
(R288) is the word that was issued (log entry 5). -/
def Obligations.EncodeInvertsDecode : Prop := ∀ (w : Word) (i : Instr), decode w = .command i → encode i = w

/-- R83: a word decodes to the command of a row exactly when it matches the row; a word that matches no row, and only such
a word, is ReservedEncoding. -/
def Obligations.DecodeAcceptsExactlyTheRows : Prop :=
  ∀ w : Word,
    (∀ r ∈ opcodeRows, r.accepts w = true ↔ ∃ i, decode w = .command i ∧ mnemonic i = r.mnemonic) ∧
    ((∀ r ∈ opcodeRows, r.accepts w = false) ↔ decode w = .reservedEncoding)

/-- R83: "the rows' patterns are disjoint because the opcodes differ". -/
def Obligations.NoWordMatchesTwoRows : Prop :=
  ∀ (w : Word) (r q : Row), r ∈ opcodeRows → q ∈ opcodeRows → r.accepts w = true → q.accepts w = true → r = q

/-- Words written out from R86 and R91, one for each unit, decode to the commands they stand for; three illegal words do
not decode (R88). -/
def Obligations.SampleWordsDecode : Prop :=
  decode 0x1020FFFF#32 = .command (.ldi 1 0xFFFF#16) ∧
  decode 0x13053000#32 = .command (.vset64 3 1 2) ∧
  decode 0x20280000#32 = .command (.addl 1 2) ∧
  decode 0x30280000#32 = .command (.mull 1 2) ∧
  decode 0x43298000#32 = .command (.shrnl 1 2 3) ∧
  decode 0x52801000#32 = .command (.vral 4 1) ∧
  decode 0x61001400#32 = .command (.vcmp 1 2) ∧
  decode 0x700C1400#32 = .command (.vdiv 0 1 2 3) ∧
  decode 0x00000000#32 = .reservedEncoding ∧
  decode 0x20288000#32 = .reservedEncoding ∧
  decode 0x10210000#32 = .reservedEncoding

/-! ### The step and the host's transactions -/

/-- R291, R298: when the host issues a word, the transaction is taken from the host's list, returns nothing, and the step is
the block's own step on the word; that step is the command's own effect when the word decodes to a command and the block
has not faulted. -/
def Obligations.StepRunsTheDecodedCommand : Prop :=
  ∀ (s : State) (w : Word) (rest : List Transaction),
    s.pending = .issue w :: rest →
    step s = issue w { s with pending := rest, reply := none } ∧
    ∀ i : Instr, s.flagF = false → decode w = .command i → step s = exec i { s with pending := rest, reply := none }

/-- R281: a word that no row of R86 accepts raises ReservedEncoding in every state that has not faulted, whatever that state
holds. -/
def Obligations.IllegalWordsRaiseReservedEncoding : Prop :=
  ∀ (s : State) (w : Word), s.flagF = false → (∀ r ∈ opcodeRows, r.accepts w = false) →
    issue w s = .next { s with cause := 1#32, fcmd := w, status := putBit s.status bitF true }

/-- R290: while F = 1 an issued word is discarded, and Observe still works and changes nothing of the block. -/
def Obligations.FaultedBlockDiscardsCommands : Prop :=
  ∀ (s : State) (rest : List Transaction), s.flagF = true →
    (∀ w, s.pending = .issue w :: rest → step s = .next { s with pending := rest, reply := none }) ∧
    (∀ n, s.pending = .observe n :: rest →
      step s = .next { s with pending := rest, reply := some (s.observe n) }) ∧
    (∀ n j, s.pending = .observeLimb n j :: rest →
      step s = .next { s with pending := rest, reply := some (s.observeLimb n j) })

/-- R299: Reset puts every piece of the block's state to its reset value, faulted or not, and no other transaction clears F.
(That CAP and the host's list stay is the model's choice, log entries 1 and 3.) -/
def Obligations.ResetIsTheOnlyWayOut : Prop :=
  (∀ (s : State) (rest : List Transaction), s.pending = .reset :: rest →
    step s = .next
      { x := Vector.replicate 8 0#32, v := Vector.replicate 8 [0#32], ov := 0#32, status := 0#32, cause := 0#32,
        fcmd := 0#32, cap := s.cap, pending := rest, reply := none }) ∧
  (∀ s t : State, step s = .next t → s.flagF = true → t.flagF = false → ∃ rest, s.pending = .reset :: rest)

/-- R40: the reset value of every piece of state. -/
def Obligations.ResetStateValues : Prop :=
  (∀ r : XReg, State.reset.readX r = 0#32) ∧ (∀ r : VReg, State.reset.readV r = [0#32]) ∧
  State.reset.ov = 0#32 ∧ State.reset.status = 0#32 ∧
  State.reset.flagC = false ∧ State.reset.flagEQ = false ∧ State.reset.flagLT = false ∧
  State.reset.flagT = false ∧ State.reset.flagF = false ∧
  State.reset.cause = 0#32 ∧ State.reset.fcmd = 0#32

/-- R42: what each selector returns; any other selector returns 0; observing changes nothing of the block. (What an Observe
of `0x40 + i` without a limb index returns is the model's reading, log entry 6, and is not stated here.) -/
def Obligations.ObserveReturnsTheTable : Prop :=
  ∀ s : State,
    (∀ i : Fin 8, s.observe i.val = s.readX i) ∧
    s.observe 0x10 = s.status ∧ s.observe 0x11 = s.cause ∧ s.observe 0x12 = s.fcmd ∧ s.observe 0x13 = s.ov ∧
    (∀ i : Fin 8, s.observe (0x20 + i.val) = BitVec.ofNat 32 (s.readV i).length) ∧
    (∀ (i : Fin 8) (j : Nat) (h : j < (s.readV i).length), s.observeLimb (0x40 + i.val) j = (s.readV i)[j]) ∧
    (∀ (i : Fin 8) (j : Nat), (s.readV i).length ≤ j → s.observeLimb (0x40 + i.val) j = 0#32) ∧
    (∀ n : Nat, (8 ≤ n ∧ n < 0x10) ∨ (0x14 ≤ n ∧ n < 0x20) ∨ (0x28 ≤ n ∧ n < 0x40) ∨ 0x48 ≤ n → s.observe n = 0#32) ∧
    (∀ n rest, s.pending = .observe n :: rest →
      step s = .next { s with pending := rest, reply := some (s.observe n) }) ∧
    (∀ n j rest, s.pending = .observeLimb n j :: rest →
      step s = .next { s with pending := rest, reply := some (s.observeLimb n j) })

/-- R291: the step function is total; from every state there is a next state, and never a fault or a refusal of the model.
With nothing asked the block stays as it is (R292, R295; the model's choice of what a step is then, log entry 4). -/
def Obligations.StepIsTotal : Prop :=
  ∀ s : State, (∃ t : State, step s = .next t) ∧ (s.pending = [] → step s = .next s)

/-- The state after reset is legal: R24, R29, R31, R34 and R35 hold of it. -/
def Obligations.ResetStateIsLegal : Prop := State.reset.Inv

/-- R24, R29, R31, R34, R35: every step from a legal state, whatever the host asks, gives a legal state: each BigNat register
is reduced and holds 1 to CAP limbs, the reserved bits of STATUS are 0, EQ and LT are never both 1, and CAUSE and FCMD are
0 exactly as F says. -/
def Obligations.StepKeepsLegalStates : Prop := ∀ s t : State, s.Inv → step s = .next t → t.Inv

/-! ### Faults -/

/-- R288: a fault of an issued word changes CAUSE, FCMD and F, and nothing else. -/
def Obligations.FaultEntryIsPrecise : Prop :=
  ∀ (s t : State) (w : Word), s.flagF = false → issue w s = .next t → t.flagF = true →
    ∃ k : Cause,
      t = { s with cause := k.code, fcmd := w, status := putBit s.status bitF true } ∧
      t.flagC = s.flagC ∧ t.flagEQ = s.flagEQ ∧ t.flagLT = s.flagLT ∧ t.flagT = s.flagT ∧
      1 ≤ k.code.toNat ∧ k.code.toNat ≤ 5

/-- R280, R286: a decoded command either raises one of the faults the table lists for it, or completes and touches none of
F, CAUSE and FCMD; the 18 commands of R286 always complete. -/
def Obligations.CommandsRaiseOnlyTheirFaults : Prop :=
  ∀ (i : Instr) (s t : State), exec i s = .next t →
    (t.flagF = s.flagF ∧ t.cause = s.cause ∧ t.fcmd = s.fcmd) ∨ (∃ k ∈ mayRaise i, t = faultEntry k (encode i) s)

/-! ### What a command may write and read -/

/-- R22: a command writes no scalar register but the one the table gives it. -/
def Obligations.ScalarWritesFollowTheTable : Prop :=
  ∀ (i : Instr) (s t : State) (r : XReg), exec i s = .next t → writesX i ≠ some r → t.readX r = s.readX r

/-- R26: a command writes no BigNat register but the one the table gives it; a source register is never changed. -/
def Obligations.BigNatWritesFollowTheTable : Prop :=
  ∀ (i : Instr) (s t : State) (r : VReg), exec i s = .next t → writesV i ≠ some r → t.readV r = s.readV r

/-- R28, R30, R31, R32: OV is written by MULL, SHLL and SHLLO only, C by ADDL and ADCL only, EQ and LT by CMPL and VCMP
only, T by VTSTB only, and no command changes a reserved bit of STATUS (R29). -/
def Obligations.FlagAndOverflowWriters : Prop :=
  ∀ (i : Instr) (s t : State), exec i s = .next t →
    (writesOV i = false → t.ov = s.ov) ∧
    (writesC i = false → t.flagC = s.flagC) ∧
    (writesCompare i = false → t.flagEQ = s.flagEQ ∧ t.flagLT = s.flagLT) ∧
    (writesT i = false → t.flagT = s.flagT) ∧
    t.status &&& reservedStatus = s.status &&& reservedStatus

/-- R6, R20, R36, R41, R291: a command's meaning and the issue of a word are functions of the block, of CAP and of the
command alone, and change the block alone: CAP, what the host will ask next, and what the last transaction returned stay.
(That State holds these three beside the block is the model's choice, log entries 1 to 3.) -/
def Obligations.CommandsActOnTheBlockAlone : Prop :=
  (∀ (i : Instr) (s : State), exec i s = .next (s.withBlock (Block.exec s.cap i s.toBlock))) ∧
  (∀ (w : Word) (s : State), issue w s = .next (s.withBlock (Block.step s.cap s.toBlock w))) ∧
  (∀ (i : Instr) (s t : State), exec i s = .next t →
    t.cap = s.cap ∧ t.pending = s.pending ∧ t.reply = s.reply)

/-- R22, R26, R28, R30, R37: what a command does depends only on CAP and on the operands the tables say it reads. In two
states that agree on those, it faults alike with the same record, and else writes the same values. -/
def Obligations.CommandReadsOnlyItsOperands : Prop :=
  ∀ (i : Instr) (s₁ s₂ t₁ t₂ : State),
    s₁.flagF = false → s₂.flagF = false → s₁.cap = s₂.cap →
    (∀ r ∈ readsX i, s₁.readX r = s₂.readX r) → (∀ r ∈ readsV i, s₁.readV r = s₂.readV r) →
    (readsC i = true → s₁.flagC = s₂.flagC) → (readsOV i = true → s₁.ov = s₂.ov) →
    exec i s₁ = .next t₁ → exec i s₂ = .next t₂ →
    t₁.flagF = t₂.flagF ∧
    (t₁.flagF = true → t₁.cause = t₂.cause ∧ t₁.fcmd = t₂.fcmd) ∧
    (t₁.flagF = false →
      (∀ r, writesX i = some r → t₁.readX r = t₂.readX r) ∧
      (∀ r, writesV i = some r → t₁.readV r = t₂.readV r) ∧
      (writesOV i = true → t₁.ov = t₂.ov) ∧
      (writesC i = true → t₁.flagC = t₂.flagC) ∧
      (writesCompare i = true → t₁.flagEQ = t₂.flagEQ ∧ t₁.flagLT = t₂.flagLT) ∧
      (writesT i = true → t₁.flagT = t₂.flagT))

/-! ### Data movement -/

/-- R110, R111: LDI writes `zext_32(imm16)`; LDIH writes `imm16 * 65536 + (x[xd] mod 65536)`. -/
def Obligations.LdiAndLdihLoadImmediates : Prop :=
  ∀ (xd : XReg) (imm16 : BitVec 16) (s : State),
    exec (.ldi xd imm16) s = .next { s with x := s.x.set xd (BitVec.ofNat 32 imm16.toNat) } ∧
    exec (.ldih xd imm16) s =
      .next { s with x := s.x.set xd (BitVec.ofNat 32 (imm16.toNat * 65536 + (s.readX xd).toNat % 65536)) }

/-- R112: MFOV copies OV, which keeps its value. -/
def Obligations.MfovCopiesOverflow : Prop :=
  ∀ (xd : XReg) (s : State), exec (.mfov xd) s = .next { s with x := s.x.set xd s.ov }

/-- R113, R114: VSET makes a one-limb sequence; VSET64 makes the reduced sequence of `x[xt] * 2^32 + x[xs]`. -/
def Obligations.VsetAndVset64BuildFromScalars : Prop :=
  ∀ (vd : VReg) (xs xt : XReg) (s : State),
    exec (.vset vd xs) s = .next { s with v := s.v.set vd (limbs (s.readX xs).toNat) } ∧
    exec (.vset64 vd xs xt) s =
      .next { s with v := s.v.set vd (limbs ((s.readX xt).toNat * 2 ^ 32 + (s.readX xs).toNat)) }

/-- R115, R116: VMOV copies a sequence; VLEN reads its length. -/
def Obligations.VmovAndVlenReadWholeRegisters : Prop :=
  ∀ (vd vs : VReg) (xd : XReg) (s : State),
    exec (.vmov vd vs) s = .next { s with v := s.v.set vd (s.readV vs) } ∧
    exec (.vlen xd vs) s = .next { s with x := s.x.set xd (BitVec.ofNat 32 (s.readV vs).length) }

/-- R117: VGETL reads the limb at an index below the length; an index at or above it is OperandRange. -/
def Obligations.VgetlReadsOneLimb : Prop :=
  ∀ (xd xs : XReg) (vs : VReg) (s : State),
    (∀ h : (s.readX xs).toNat < (s.readV vs).length,
      exec (.vgetl xd vs xs) s = .next { s with x := s.x.set xd ((s.readV vs)[(s.readX xs).toNat]) }) ∧
    ((s.readV vs).length ≤ (s.readX xs).toNat →
      exec (.vgetl xd vs xs) s = .next (faultEntry .operandRange (encode (.vgetl xd vs xs)) s))

/-- R118: VPUTL below the length replaces a limb and reduces; at the length it appends a limb that is not 0 when the register
has room, changes nothing when the limb is 0, and else is CapacityOverflow; above the length it is OperandRange. -/
def Obligations.VputlWritesOneLimb : Prop :=
  ∀ (vd : VReg) (xs xt : XReg) (s : State), s.wfV vd = true →
    let j := (s.readX xs).toNat
    let L := s.readV vd
    (j < L.length →
      exec (.vputl vd xs xt) s = .next { s with v := s.v.set vd (limbs (val (L.set j (s.readX xt)))) }) ∧
    (j = L.length → s.readX xt = 0#32 → exec (.vputl vd xs xt) s = .next s) ∧
    (j = L.length → s.readX xt ≠ 0#32 → L.length < s.cap →
      exec (.vputl vd xs xt) s = .next { s with v := s.v.set vd (L ++ [s.readX xt]) }) ∧
    (j = L.length → s.readX xt ≠ 0#32 → L.length = s.cap →
      exec (.vputl vd xs xt) s = .next (faultEntry .capacityOverflow (encode (.vputl vd xs xt)) s)) ∧
    (L.length < j →
      exec (.vputl vd xs xt) s = .next (faultEntry .operandRange (encode (.vputl vd xs xt)) s))

/-! ### The limb_adder -/

/-- R131, R132: ADDL and ADCL write the sum modulo 2^32 and set C to the carry out; ADDL ignores the old C and ADCL adds
it. -/
def Obligations.AddlAndAdclAddLimbs : Prop :=
  ∀ (xd xs : XReg) (s : State),
    exec (.addl xd xs) s = .next { s with
      x := s.x.set xd (s.readX xd + s.readX xs),
      status := putBit s.status bitC (decide (2 ^ 32 ≤ (s.readX xd).toNat + (s.readX xs).toNat)) } ∧
    exec (.adcl xd xs) s = .next { s with
      x := s.x.set xd (s.readX xd + s.readX xs + BitVec.ofNat 32 s.flagC.toNat),
      status := putBit s.status bitC (decide (2 ^ 32 ≤ (s.readX xd).toNat + (s.readX xs).toNat + s.flagC.toNat)) }

/-- R134: VADD writes the exact sum; it is CapacityOverflow when the sum has more than `32 * CAP` bits. -/
def Obligations.VaddAddsExactly : Prop :=
  ∀ (vd vs : VReg) (s : State), s.capLegal →
    (bitlen (s.valV vd + s.valV vs) ≤ 32 * s.cap →
      exec (.vadd vd vs) s = .next { s with v := s.v.set vd (limbs (s.valV vd + s.valV vs)) }) ∧
    (32 * s.cap < bitlen (s.valV vd + s.valV vs) →
      exec (.vadd vd vs) s = .next (faultEntry .capacityOverflow (encode (.vadd vd vs)) s))

/-- R135: VADDS adds a 32 bit scalar exactly, with the same capacity condition. -/
def Obligations.VaddsAddsScalar : Prop :=
  ∀ (vd : VReg) (xs : XReg) (s : State), s.capLegal →
    (bitlen (s.valV vd + (s.readX xs).toNat) ≤ 32 * s.cap →
      exec (.vadds vd xs) s = .next { s with v := s.v.set vd (limbs (s.valV vd + (s.readX xs).toNat)) }) ∧
    (32 * s.cap < bitlen (s.valV vd + (s.readX xs).toNat) →
      exec (.vadds vd xs) s = .next (faultEntry .capacityOverflow (encode (.vadds vd xs)) s))

/-- R136: VSUB writes the absolute difference, for every pair of operands, and never faults. -/
def Obligations.VsubIsAbsoluteDifference : Prop :=
  ∀ (vd vs : VReg) (s : State), s.wfV vd = true → s.wfV vs = true →
    exec (.vsub vd vs) s = .next { s with v := s.v.set vd (limbs (natDiff (s.valV vd) (s.valV vs))) }

/-! ### The limb_multiplier -/

/-- R151: MULL writes the low half of the exact product and puts the high half in OV. -/
def Obligations.MullMultipliesLimbs : Prop :=
  ∀ (xd xs : XReg) (s : State),
    exec (.mull xd xs) s = .next { s with
      x := s.x.set xd (s.readX xd * s.readX xs),
      ov := BitVec.ofNat 32 ((s.readX xd).toNat * (s.readX xs).toNat / 2 ^ 32) }

/-- R153, R152: VMUL writes the exact product, zero when an operand is zero; it is CapacityOverflow when the product has
more than `32 * CAP` bits. -/
def Obligations.VmulMultipliesExactly : Prop :=
  ∀ (vd vs : VReg) (s : State), s.capLegal →
    (bitlen (s.valV vd * s.valV vs) ≤ 32 * s.cap →
      exec (.vmul vd vs) s = .next { s with v := s.v.set vd (limbs (s.valV vd * s.valV vs)) }) ∧
    (32 * s.cap < bitlen (s.valV vd * s.valV vs) →
      exec (.vmul vd vs) s = .next (faultEntry .capacityOverflow (encode (.vmul vd vs)) s))

/-- R154: VMULS multiplies by a 32 bit scalar exactly, with the same capacity condition. -/
def Obligations.VmulsMultipliesByScalar : Prop :=
  ∀ (vd : VReg) (xs : XReg) (s : State), s.capLegal →
    (bitlen (s.valV vd * (s.readX xs).toNat) ≤ 32 * s.cap →
      exec (.vmuls vd xs) s = .next { s with v := s.v.set vd (limbs (s.valV vd * (s.readX xs).toNat)) }) ∧
    (32 * s.cap < bitlen (s.valV vd * (s.readX xs).toNat) →
      exec (.vmuls vd xs) s = .next (faultEntry .capacityOverflow (encode (.vmuls vd xs)) s))

/-! ### The barrel_shifter -/

/-- R166, R167: for a count below 32 the limb is shifted left, SHLL with nothing and SHLLO with OV ored in, and OV gets the
bits pushed out; a count of 32 or more is OperandRange. -/
def Obligations.ShllAndShlloShiftLimbs : Prop :=
  ∀ (xd xs : XReg) (s : State),
    ((s.readX xs).toNat < 32 →
      exec (.shll xd xs) s = .next { s with
        x := s.x.set xd (s.readX xd <<< (s.readX xs).toNat),
        ov := BitVec.ofNat 32 ((s.readX xd).toNat * 2 ^ (s.readX xs).toNat / 2 ^ 32) } ∧
      exec (.shllo xd xs) s = .next { s with
        x := s.x.set xd ((s.readX xd <<< (s.readX xs).toNat) ||| s.ov),
        ov := BitVec.ofNat 32 ((s.readX xd).toNat * 2 ^ (s.readX xs).toNat / 2 ^ 32) }) ∧
    (32 ≤ (s.readX xs).toNat →
      exec (.shll xd xs) s = .next (faultEntry .operandRange (encode (.shll xd xs)) s) ∧
      exec (.shllo xd xs) s = .next (faultEntry .operandRange (encode (.shllo xd xs)) s))

/-- R168, R169: for a count below 32, SHRL shifts right logically and SHRNL gives the low limb of the two-limb value
`x[xt] * 2^32 + x[xd]` shifted right; OV is untouched; a count of 32 or more is OperandRange. -/
def Obligations.ShrlAndShrnlShiftLimbs : Prop :=
  ∀ (xd xs xt : XReg) (s : State),
    ((s.readX xs).toNat < 32 →
      exec (.shrl xd xs) s = .next { s with
        x := s.x.set xd (BitVec.ofNat 32 ((s.readX xd).toNat / 2 ^ (s.readX xs).toNat)) } ∧
      exec (.shrnl xd xs xt) s = .next { s with
        x := s.x.set xd (BitVec.ofNat 32
          (((s.readX xt).toNat * 2 ^ 32 + (s.readX xd).toNat) / 2 ^ (s.readX xs).toNat)) }) ∧
    (32 ≤ (s.readX xs).toNat →
      exec (.shrl xd xs) s = .next (faultEntry .operandRange (encode (.shrl xd xs)) s) ∧
      exec (.shrnl xd xs xt) s = .next (faultEntry .operandRange (encode (.shrnl xd xs xt)) s))

/-- R170: VSHL multiplies by `2^n`; zero stays zero for every count; it is CapacityOverflow when the value is not 0 and its
width and the count together pass `32 * CAP`. -/
def Obligations.VshlShiftsLeft : Prop :=
  ∀ (vd : VReg) (xs : XReg) (s : State),
    (s.valV vd = 0 ∨ bitlen (s.valV vd) + (s.readX xs).toNat ≤ 32 * s.cap →
      exec (.vshl vd xs) s = .next { s with v := s.v.set vd (limbs (s.valV vd * 2 ^ (s.readX xs).toNat)) }) ∧
    (s.valV vd ≠ 0 → 32 * s.cap < bitlen (s.valV vd) + (s.readX xs).toNat →
      exec (.vshl vd xs) s = .next (faultEntry .capacityOverflow (encode (.vshl vd xs)) s))

/-- R171: VSHR divides by `2^n` and floors, for every count, and never faults. -/
def Obligations.VshrShiftsRight : Prop :=
  ∀ (vd : VReg) (xs : XReg) (s : State),
    exec (.vshr vd xs) s = .next { s with v := s.v.set vd (limbs (s.valV vd / 2 ^ (s.readX xs).toNat)) }

/-- R172: VINV complements the low `n` bits of the value; a window wider than the register is CapacityOverflow. -/
def Obligations.VinvComplementsWindow : Prop :=
  ∀ (vd : VReg) (xs : XReg) (s : State),
    ((s.readX xs).toNat ≤ 32 * s.cap →
      exec (.vinv vd xs) s = .next { s with v := s.v.set vd (limbs (invNat (s.valV vd) (s.readX xs).toNat)) }) ∧
    (32 * s.cap < (s.readX xs).toNat →
      exec (.vinv vd xs) s = .next (faultEntry .capacityOverflow (encode (.vinv vd xs)) s))

/-- R173: VSETB sets one bit of the value; an index of `32 * CAP` or more is CapacityOverflow. -/
def Obligations.VsetbSetsBit : Prop :=
  ∀ (vd : VReg) (xs : XReg) (s : State), s.wfV vd = true →
    ((s.readX xs).toNat < 32 * s.cap →
      exec (.vsetb vd xs) s = .next { s with v := s.v.set vd (limbs (s.valV vd ||| 2 ^ (s.readX xs).toNat)) }) ∧
    (32 * s.cap ≤ (s.readX xs).toNat →
      exec (.vsetb vd xs) s = .next (faultEntry .capacityOverflow (encode (.vsetb vd xs)) s))

/-- R174: VCLRB clears one bit of the value and never faults; a bit that is 0 leaves the whole state as it is. -/
def Obligations.VclrbClearsBit : Prop :=
  ∀ (vd : VReg) (xs : XReg) (s : State), s.wfV vd = true →
    ((s.valV vd).testBit (s.readX xs).toNat = true →
      exec (.vclrb vd xs) s = .next { s with v := s.v.set vd (limbs (s.valV vd - 2 ^ (s.readX xs).toNat)) }) ∧
    ((s.valV vd).testBit (s.readX xs).toNat = false → exec (.vclrb vd xs) s = .next s)

/-- R175: VTSTB puts bit `i` of the value in T, 0 above the value, and never faults. -/
def Obligations.VtstbTestsBit : Prop :=
  ∀ (vs : VReg) (xs : XReg) (s : State),
    exec (.vtstb vs xs) s =
      .next { s with status := putBit s.status bitT ((s.valV vs).testBit (s.readX xs).toNat) }

/-! ### The normalizer_shifter -/

/-- R197: CTZL writes the index of the lowest set bit; zero is ZeroOperand. -/
def Obligations.CtzlFindsLowestBit : Prop :=
  ∀ (xd xs : XReg) (s : State),
    (s.readX xs ≠ 0#32 →
      ∃ k : Nat, k < 32 ∧ (s.readX xs).getLsbD k = true ∧ (∀ j < k, (s.readX xs).getLsbD j = false) ∧
        exec (.ctzl xd xs) s = .next { s with x := s.x.set xd (BitVec.ofNat 32 k) }) ∧
    (s.readX xs = 0#32 →
      exec (.ctzl xd xs) s = .next (faultEntry .zeroOperand (encode (.ctzl xd xs)) s))

/-- R198: VLAL shifts left by the 0 to 31 places that put the highest set bit in the top bit of the last limb, keeps the
length and returns the amount; for zero it returns 0 and leaves the register. -/
def Obligations.VlalLeftAligns : Prop :=
  ∀ (xd : XReg) (vd : VReg) (s : State), s.wfV vd = true →
    (s.valV vd ≠ 0 →
      ∃ n : Nat, n ≤ 31 ∧
        (limbs (s.valV vd * 2 ^ n)).length = (s.readV vd).length ∧
        (s.valV vd * 2 ^ n).testBit (32 * (s.readV vd).length - 1) = true ∧
        exec (.vlal xd vd) s = .next { s with
          v := s.v.set vd (limbs (s.valV vd * 2 ^ n)), x := s.x.set xd (BitVec.ofNat 32 n) }) ∧
    (s.valV vd = 0 → exec (.vlal xd vd) s = .next { s with x := s.x.set xd 0#32 })

/-- R199: VRAL shifts out the trailing zero bits and returns their number, the value left being odd; for zero it returns 0
and leaves the register. -/
def Obligations.VralRightAligns : Prop :=
  ∀ (xd : XReg) (vd : VReg) (s : State), s.wfV vd = true →
    (s.valV vd ≠ 0 →
      ∃ k q : Nat, s.valV vd = q * 2 ^ k ∧ q % 2 = 1 ∧ k < 32 * s.cap ∧
        exec (.vral xd vd) s = .next { s with
          v := s.v.set vd (limbs q), x := s.x.set xd (BitVec.ofNat 32 k) }) ∧
    (s.valV vd = 0 → exec (.vral xd vd) s = .next { s with x := s.x.set xd 0#32 })

/-- R200, R198, R199: for a value that is not 0, VRAL after VLAL returns at least the amount VLAL returned and leaves an odd
number; shifted left by the difference of the two counts, that number is the value before both commands. -/
def Obligations.RightAlignAfterLeftAlign : Prop :=
  ∀ (xd xe : XReg) (vd : VReg) (s : State), s.capLegal → s.wfV vd = true → s.valV vd ≠ 0 →
    ∃ t u, exec (.vlal xd vd) s = .next t ∧ exec (.vral xe vd) t = .next u ∧
      t.readX xd ≤ u.readX xe ∧ u.valV vd % 2 = 1 ∧
      u.valV vd * 2 ^ ((u.readX xe).toNat - (t.readX xd).toNat) = s.valV vd

/-! ### The comparison_unit -/

/-- R211, R213, R31: CMPL and VCMP write EQ and LT from the order of the values, and nothing else. -/
def Obligations.CmplAndVcmpSetFlags : Prop :=
  (∀ (xs xt : XReg) (s : State),
    exec (.cmpl xs xt) s = .next { s with
      status := putBit (putBit s.status bitEQ (decide ((s.readX xs).toNat = (s.readX xt).toNat))) bitLT
        (decide ((s.readX xs).toNat < (s.readX xt).toNat)) }) ∧
  (∀ (vd vs : VReg) (s : State), s.wfV vd = true → s.wfV vs = true →
    exec (.vcmp vd vs) s = .next { s with
      status := putBit (putBit s.status bitEQ (decide (s.valV vd = s.valV vs))) bitLT
        (decide (s.valV vd < s.valV vs)) })

/-- R215, R216: LOG2L and VLOG2 write the index of the highest set bit; zero is ZeroOperand. -/
def Obligations.Log2lAndVlog2FindHighestBit : Prop :=
  (∀ (xd xs : XReg) (s : State),
    (s.readX xs ≠ 0#32 →
      ∃ k : Nat, 2 ^ k ≤ (s.readX xs).toNat ∧ (s.readX xs).toNat < 2 ^ (k + 1) ∧
        exec (.log2l xd xs) s = .next { s with x := s.x.set xd (BitVec.ofNat 32 k) }) ∧
    (s.readX xs = 0#32 →
      exec (.log2l xd xs) s = .next (faultEntry .zeroOperand (encode (.log2l xd xs)) s))) ∧
  (∀ (xd : XReg) (vs : VReg) (s : State), s.wfV vs = true →
    (s.valV vs ≠ 0 →
      ∃ k : Nat, 2 ^ k ≤ s.valV vs ∧ s.valV vs < 2 ^ (k + 1) ∧ k < 32 * s.cap ∧
        exec (.vlog2 xd vs) s = .next { s with x := s.x.set xd (BitVec.ofNat 32 k) }) ∧
    (s.valV vs = 0 →
      exec (.vlog2 xd vs) s = .next (faultEntry .zeroOperand (encode (.vlog2 xd vs)) s)))

/-! ### The integer_divider -/

/-- R226, R228, R229: for a denominator that is not zero, and a numerator that is zero or working values that fit, VDIV
writes the floor of `n * 2^acc / d` with its sticky bit 0, and the accuracy. -/
def Obligations.VdivDividesFractionally : Prop :=
  ∀ (xd : XReg) (vd vs : VReg) (xs : XReg) (s : State), s.valV vs ≠ 0 →
    (s.valV vd = 0 ∨
      max (bitlen (s.valV vd) + (s.readX xs).toNat) (bitlen (s.valV vs)) + 1 ≤ 32 * s.cap) →
    exec (.vdiv xd vd vs xs) s = .next { s with
      v := s.v.set vd (limbs (divClosed (s.valV vd) (s.valV vs) (s.readX xs).toNat)),
      x := s.x.set xd (s.readX xs) }

/-- R226, R284, R287, R229: a zero denominator is DivideByZero whatever else holds; else a numerator that is not zero with
working values that do not fit is CapacityOverflow. -/
def Obligations.VdivFaultsInOrder : Prop :=
  ∀ (xd : XReg) (vd vs : VReg) (xs : XReg) (s : State),
    (s.valV vs = 0 →
      exec (.vdiv xd vd vs xs) s = .next (faultEntry .divideByZero (encode (.vdiv xd vd vs xs)) s)) ∧
    (s.valV vs ≠ 0 → s.valV vd ≠ 0 →
      32 * s.cap < max (bitlen (s.valV vd) + (s.readX xs).toNat) (bitlen (s.valV vs)) + 1 →
      exec (.vdiv xd vd vs xs) s = .next (faultEntry .capacityOverflow (encode (.vdiv xd vd vs xs)) s))

/-- R228, which the spec marks as derived from R225 and R227: the divider's loops have the closed form; the result is the
floor or one above it, and lies within 1 of the true quotient. -/
def Obligations.DividerLoopHasClosedForm : Prop :=
  ∀ n d acc : Nat, 0 < d →
    fracDiv n d acc = (n * 2 ^ acc / d) ||| (if n * 2 ^ acc % d * 2 ^ acc ≥ d then 1 else 0) ∧
    n * 2 ^ acc / d ≤ fracDiv n d acc ∧ fracDiv n d acc ≤ n * 2 ^ acc / d + 1 ∧
    natDiff (fracDiv n d acc * d) (n * 2 ^ acc) ≤ d

/-- R230: the result `R` of the divider satisfies `|R * d - n * 2^acc| < d`. -/
def Obligations.DividerErrorIsBelowDenominator : Prop :=
  ∀ n d acc : Nat, 0 < d → natDiff (fracDiv n d acc * d) (n * 2 ^ acc) < d

/-! ### Laws across commands, and text -/

/-- R196: the de Bruijn form the spec gives for a reader (its numbers are general knowledge, log entry 12) agrees with the
index of the lowest set bit. -/
def Obligations.DeBruijnFormFindsLowestBit : Prop := ∀ l : Limb, l ≠ 0#32 → ctz32DeBruijn l = ctz32 l

/-- R92: after LDI of the low half then LDIH of the high half, `x[xd] = imm32`; for an immediate below 65536 the LDI alone
does it. That LI32 expands to the two commands below 65536 too, where R92 lets an assembler emit the LDI alone, is the
model's choice (log entry 11). -/
def Obligations.Li32LoadsWholeWord : Prop :=
  ∀ (xd : XReg) (imm32 : BitVec 32) (s : State),
    expandLi32 xd imm32 = [.ldi xd (imm32.extractLsb' 0 16), .ldih xd (imm32.extractLsb' 16 16)] ∧
    (∃ t, exec (.ldi xd (imm32.extractLsb' 0 16)) s = .next t ∧
      exec (.ldih xd (imm32.extractLsb' 16 16)) t = .next { s with x := s.x.set xd imm32 }) ∧
    (imm32.toNat < 65536 →
      exec (.ldi xd (imm32.extractLsb' 0 16)) s = .next { s with x := s.x.set xd imm32 })

/-- R86, R91: the assembler reads every command back from its mnemonic and its operands in the order of the opcode map. -/
def Obligations.AssemblerReadsEveryCommand : Prop :=
  ∀ i : Instr, assembleCommand (mnemonic i).toList (operands i) = some [i]

/-- R137: `(x + y) - y = x`: VADD then VSUB of the same register gives the state back, when the sum fits. -/
def Obligations.AddThenSubtractRestores : Prop :=
  ∀ (vd vs : VReg) (s : State), vd ≠ vs → s.capLegal → s.wfV vd = true → s.wfV vs = true →
    bitlen (s.valV vd + s.valV vs) ≤ 32 * s.cap →
    ∃ t, exec (.vadd vd vs) s = .next t ∧ exec (.vsub vd vs) t = .next s

/-- R176: `(x << n) >> n = x`: VSHL then VSHR by the same count gives the state back when VSHL does not fault, and
inverting the same window twice does too. -/
def Obligations.ShiftAndInvertRoundTrips : Prop :=
  ∀ (vd : VReg) (xs : XReg) (s : State), s.wfV vd = true →
    (s.valV vd = 0 ∨ bitlen (s.valV vd) + (s.readX xs).toNat ≤ 32 * s.cap →
      ∃ t, exec (.vshl vd xs) s = .next t ∧ exec (.vshr vd xs) t = .next s) ∧
    ((s.readX xs).toNat ≤ 32 * s.cap →
      ∃ t, exec (.vinv vd xs) s = .next t ∧ exec (.vinv vd xs) t = .next s)

/-- R155: the low limb and OV of MULL are limbs 0 and 1 of VMUL on the same one-limb operands. -/
def Obligations.MullAgreesWithVmul : Prop :=
  ∀ (xd xs : XReg) (vd vs : VReg) (s : State), s.capLegal →
    s.readV vd = [s.readX xd] → s.readV vs = [s.readX xs] →
    ∃ t u, exec (.mull xd xs) s = .next t ∧ exec (.vmul vd vs) s = .next u ∧
      (u.readV vd).getD 0 0#32 = t.readX xd ∧ (u.readV vd).getD 1 0#32 = t.ov

/-- R131, R132 and R166, R167 in a chain: ADDL then ADCL add two-limb values, the carry passing through C; SHLL then SHLLO by
one count shift a two-limb value, the bits passing through OV. -/
def Obligations.LimbChainsComputeTwoLimbValues : Prop :=
  (∀ (a0 a1 b0 b1 : XReg) (s : State), a0 ≠ a1 → a0 ≠ b1 →
    ∃ t u, exec (.addl a0 b0) s = .next t ∧ exec (.adcl a1 b1) t = .next u ∧
      (u.readX a0).toNat + 2 ^ 32 * (u.readX a1).toNat + 2 ^ 64 * u.flagC.toNat =
        ((s.readX a0).toNat + 2 ^ 32 * (s.readX a1).toNat) + ((s.readX b0).toNat + 2 ^ 32 * (s.readX b1).toNat)) ∧
  (∀ (lo hi cnt : XReg) (s : State), lo ≠ hi → lo ≠ cnt → (s.readX cnt).toNat < 32 →
    ∃ t u, exec (.shll lo cnt) s = .next t ∧ exec (.shllo hi cnt) t = .next u ∧
      (u.readX lo).toNat + 2 ^ 32 * (u.readX hi).toNat + 2 ^ 64 * u.ov.toNat =
        ((s.readX lo).toNat + 2 ^ 32 * (s.readX hi).toNat) * 2 ^ (s.readX cnt).toNat)

/-- R170, R172, R173 and R285 (log entry 8): for a register in legal form, VSHL, VINV and VSETB, which test capacity before
the work, do what their rules give with the test after it: CapacityOverflow exactly when the reduced result has more than
CAP limbs, and else the result is written. -/
def Obligations.EarlyCapacityTestsAgree : Prop :=
  ∀ (vd : VReg) (xs : XReg) (s : State), s.wfV vd = true →
    (exec (.vshl vd xs) s =
      if s.cap < (shl (s.readV vd) (s.readX xs).toNat).length
      then .next (faultEntry .capacityOverflow (encode (.vshl vd xs)) s)
      else .next { s with v := s.v.set vd (shl (s.readV vd) (s.readX xs).toNat) }) ∧
    (exec (.vinv vd xs) s =
      if s.cap < (inv (s.readV vd) (s.readX xs).toNat).length
      then .next (faultEntry .capacityOverflow (encode (.vinv vd xs)) s)
      else .next { s with v := s.v.set vd (inv (s.readV vd) (s.readX xs).toNat) }) ∧
    (exec (.vsetb vd xs) s =
      if s.cap < (setBit (s.readV vd) (s.readX xs).toNat).length
      then .next (faultEntry .capacityOverflow (encode (.vsetb vd xs)) s)
      else .next { s with v := s.v.set vd (setBit (s.readV vd) (s.readX xs).toNat) })
end

