-- ==== Sys2Proof/Laws/Encoding.lean ====
section
/-! SUPPORT. What each field of an encoded word reads as: once for format I (R82) and once for format R (R81). -/

namespace Sys2Proof

@[simp] theorem regField_fieldOf (r : Fin 8) : regField (fieldOf r) = r := by
  revert r; decide

@[simp] theorem fieldOf_regField (f : BitVec 3) : fieldOf (regField f) = f := by
  revert f; decide

theorem fieldOf_eq_zero (r : Fin 8) : fieldOf r = 0#3 ↔ r = 0 := by
  revert r; decide

/-- A slice of an append that lies in the high part. -/
theorem slice_append_high {n m : Nat} (a : BitVec n) (b : BitVec m) (s k : Nat) (h : m ≤ s) :
    (a ++ b).extractLsb' s k = a.extractLsb' (s - m) k := by
  apply BitVec.eq_of_getLsbD_eq
  intro i hi
  simp only [BitVec.getLsbD_extractLsb', BitVec.getLsbD_append]
  have h1 : ¬ s + i < m := by omega
  have h2 : s + i - m = s - m + i := by omega
  simp [hi, h1, h2]

/-- A slice of an append that lies in the low part. -/
theorem slice_append_low {n m : Nat} (a : BitVec n) (b : BitVec m) (s k : Nat) (h : s + k ≤ m) :
    (a ++ b).extractLsb' s k = b.extractLsb' s k := by
  apply BitVec.eq_of_getLsbD_eq
  intro i hi
  simp only [BitVec.getLsbD_extractLsb', BitVec.getLsbD_append]
  have h1 : s + i < m := by omega
  simp [hi, h1]

/-- A slice of a whole word is the word. -/
theorem slice_self {n : Nat} (a : BitVec n) : a.extractLsb' 0 n = a := by
  apply BitVec.eq_of_getLsbD_eq
  intro i hi
  simp [hi]

section FormatR

variable (op : BitVec 8) (xd xs xt : XReg) (vd vs : VReg)

@[simp] theorem opcodeOf_encodeR : opcodeOf (encodeR op xd xs xt vd vs) = op := by
  simp only [opcodeOf, encodeR]
  repeat rw [slice_append_high _ _ _ _ (by decide)]
  exact slice_self op

@[simp] theorem xdOf_encodeR : xdOf (encodeR op xd xs xt vd vs) = xd := by
  simp only [xdOf, encodeR]
  iterate 5 rw [slice_append_high _ _ _ _ (by decide)]
  rw [slice_append_low _ _ _ _ (by decide), slice_self, regField_fieldOf]

@[simp] theorem xsOf_encodeR : xsOf (encodeR op xd xs xt vd vs) = xs := by
  simp only [xsOf, encodeR]
  iterate 4 rw [slice_append_high _ _ _ _ (by decide)]
  rw [slice_append_low _ _ _ _ (by decide), slice_self, regField_fieldOf]

@[simp] theorem xtOf_encodeR : xtOf (encodeR op xd xs xt vd vs) = xt := by
  simp only [xtOf, encodeR]
  iterate 3 rw [slice_append_high _ _ _ _ (by decide)]
  rw [slice_append_low _ _ _ _ (by decide), slice_self, regField_fieldOf]

@[simp] theorem vdOf_encodeR : vdOf (encodeR op xd xs xt vd vs) = vd := by
  simp only [vdOf, encodeR]
  iterate 2 rw [slice_append_high _ _ _ _ (by decide)]
  rw [slice_append_low _ _ _ _ (by decide), slice_self, regField_fieldOf]

@[simp] theorem vsOf_encodeR : vsOf (encodeR op xd xs xt vd vs) = vs := by
  simp only [vsOf, encodeR]
  rw [slice_append_high _ _ _ _ (by decide), slice_append_low _ _ _ _ (by decide), slice_self, regField_fieldOf]

@[simp] theorem zeroROf_encodeR : zeroROf (encodeR op xd xs xt vd vs) = 0#9 := by
  simp only [zeroROf, encodeR]
  rw [slice_append_low _ _ _ _ (by decide), slice_self]

end FormatR

section FormatI

variable (op : BitVec 8) (xd : XReg) (imm16 : BitVec 16)

@[simp] theorem opcodeOf_encodeI : opcodeOf (encodeI op xd imm16) = op := by
  simp only [opcodeOf, encodeI]
  repeat rw [slice_append_high _ _ _ _ (by decide)]
  exact slice_self op

@[simp] theorem xdOf_encodeI : xdOf (encodeI op xd imm16) = xd := by
  simp only [xdOf, encodeI]
  iterate 2 rw [slice_append_high _ _ _ _ (by decide)]
  rw [slice_append_low _ _ _ _ (by decide), slice_self, regField_fieldOf]

@[simp] theorem zeroIOf_encodeI : zeroIOf (encodeI op xd imm16) = 0#5 := by
  simp only [zeroIOf, encodeI]
  rw [slice_append_high _ _ _ _ (by decide), slice_append_low _ _ _ _ (by decide), slice_self]

@[simp] theorem imm16Of_encodeI : imm16Of (encodeI op xd imm16) = imm16 := by
  simp only [imm16Of, encodeI]
  rw [slice_append_low _ _ _ _ (by decide), slice_self]

end FormatI

/-- What format R's check can answer. -/
theorem formatR_command (w : Word) (u : Uses) (i j : Instr) (h : formatR w u i = .command j) :
    j = i ∧ zeroROf w = 0 ∧ (u.xd = true ∨ xdOf w = 0) ∧ (u.xs = true ∨ xsOf w = 0) ∧ (u.xt = true ∨ xtOf w = 0) ∧
      (u.vd = true ∨ vdOf w = 0) ∧ (u.vs = true ∨ vsOf w = 0) := by
  unfold formatR at h
  split at h
  · rename_i hc
    exact ⟨(Decoded.command.inj h).symm, hc⟩
  · cases h

/-- What format I's check can answer. -/
theorem formatI_command (w : Word) (i j : Instr) (h : formatI w i = .command j) : j = i ∧ zeroIOf w = 0 := by
  unfold formatI at h
  split at h
  · rename_i hc
    exact ⟨(Decoded.command.inj h).symm, hc⟩
  · cases h

/-- A word put together again from its format R fields. -/
theorem encodeR_fields (w : Word) (h : zeroROf w = 0) :
    encodeR (opcodeOf w) (xdOf w) (xsOf w) (xtOf w) (vdOf w) (vsOf w) = w := by
  have h : w.extractLsb' 0 9 = 0#9 := h
  simp only [encodeR, opcodeOf, xdOf, xsOf, xtOf, vdOf, vsOf, fieldOf_regField]
  rw [← h]
  apply BitVec.eq_of_getLsbD_eq
  intro i hi
  simp only [BitVec.getLsbD_append, BitVec.getLsbD_extractLsb']
  interval_cases i <;> simp

/-- A word put together again from its format I fields. -/
theorem encodeI_fields (w : Word) (h : zeroIOf w = 0) : encodeI (opcodeOf w) (xdOf w) (imm16Of w) = w := by
  have h : w.extractLsb' 16 5 = 0#5 := h
  simp only [encodeI, opcodeOf, xdOf, imm16Of, fieldOf_regField]
  rw [← h]
  apply BitVec.eq_of_getLsbD_eq
  intro i hi
  simp only [BitVec.getLsbD_append, BitVec.getLsbD_extractLsb']
  interval_cases i <;> simp

end Sys2Proof
end

