-- ==== Sys2Proof/Laws/LimbSeq.lean ====
section
/-! SUPPORT. What the primitive functions of R12 do: the value of a sequence, reduce, limbs, bit lengths. Later proofs cite
these and unfold no loop. -/

namespace Sys2Proof.Machine

/-! ### The value of a limb sequence -/

@[simp] theorem val_nil : val [] = 0 := rfl

theorem val_cons (l : Limb) (L : List Limb) : val (l :: L) = l.toNat + 2 ^ 32 * val L := rfl

@[simp] theorem val_single (l : Limb) : val [l] = l.toNat := by simp [val_cons]

theorem val_append (A B : List Limb) : val (A ++ B) = val A + 2 ^ (32 * A.length) * val B := by
  induction A with
  | nil => simp
  | cons a A ih =>
    have h : 2 ^ (32 * (A.length + 1)) = 2 ^ 32 * 2 ^ (32 * A.length) := by rw [← pow_add]; congr 1; omega
    rw [List.cons_append, val_cons, val_cons, ih, List.length_cons, h]
    ring

@[simp] theorem val_replicate_zero (n : Nat) : val (List.replicate n 0#32) = 0 := by
  induction n with
  | zero => rfl
  | succ n ih => simp [List.replicate_succ, val_cons, ih]

/-- The value of `n` limbs is below `2^(32 n)`. -/
theorem val_lt (L : List Limb) : val L < 2 ^ (32 * L.length) := by
  induction L with
  | nil => simp
  | cons l L ih =>
    have h : 2 ^ (32 * (L.length + 1)) = 2 ^ 32 * 2 ^ (32 * L.length) := by rw [← pow_add]; congr 1; omega
    rw [val_cons, List.length_cons, h]
    have hl := l.isLt
    nlinarith

/-- A sequence whose value is 0 has only limbs of 0. -/
theorem val_eq_zero (L : List Limb) : val L = 0 ↔ ∀ l ∈ L, l = 0#32 := by
  induction L with
  | nil => simp
  | cons l L ih =>
    rw [val_cons]
    simp only [List.mem_cons, forall_eq_or_imp, ← ih]
    constructor
    · intro h
      have h1 : l.toNat = 0 := by omega
      exact ⟨BitVec.eq_of_toNat_eq (by simpa using h1), by omega⟩
    · rintro ⟨rfl, h⟩
      simp [h]

/-- Equal lengths and equal values make equal sequences. -/
theorem eq_of_val_eq {A B : List Limb} (hl : A.length = B.length) (hv : val A = val B) : A = B := by
  induction A generalizing B with
  | nil => cases B with
    | nil => rfl
    | cons b B => simp at hl
  | cons a A ih => cases B with
    | nil => simp at hl
    | cons b B =>
      rw [val_cons, val_cons] at hv
      have ha := a.isLt
      have hb := b.isLt
      have h1 : a.toNat = b.toNat := by omega
      have h2 : val A = val B := by omega
      rw [BitVec.eq_of_toNat_eq h1, ih (by simpa using hl) h2]

/-! ### reduce -/

@[simp] theorem val_dropTopZeros (L : List Limb) : val (dropTopZeros L) = val L := by
  induction L with
  | nil => rfl
  | cons l L ih =>
    rw [val_cons, ← ih, dropTopZeros]
    cases dropTopZeros L with
    | nil =>
      by_cases h : l = 0#32
      · simp [h]
      · simp [h]
    | cons m M => rfl

/-- `val(reduce(L)) = val(L)` (R12). -/
@[simp] theorem val_reduce (L : List Limb) : val (reduce L) = val L := by
  rw [← val_dropTopZeros L, reduce]
  cases dropTopZeros L <;> simp

theorem length_dropTopZeros_le (L : List Limb) : (dropTopZeros L).length ≤ L.length := by
  induction L with
  | nil => simp [dropTopZeros]
  | cons l L ih =>
    rw [dropTopZeros]
    cases h : dropTopZeros L with
    | nil => by_cases hl : l = 0#32 <;> simp [hl]
    | cons m M => simp [h] at ih ⊢; omega

/-- Reduce never lengthens a sequence that is not empty. -/
theorem length_reduce_le (L : List Limb) (h : L ≠ []) : (reduce L).length ≤ L.length := by
  have h1 := length_dropTopZeros_le L
  have h2 : 0 < L.length := List.length_pos_iff.mpr h
  rw [reduce]
  cases hd : dropTopZeros L with
  | nil => simp; omega
  | cons m M => simpa [hd] using h1

theorem dropTopZeros_last (L : List Limb) : dropTopZeros L = [] ∨ (dropTopZeros L).getLastD 0#32 ≠ 0#32 := by
  induction L with
  | nil => exact .inl rfl
  | cons l L ih =>
    rw [dropTopZeros]
    cases hd : dropTopZeros L with
    | nil =>
      by_cases h : l = 0#32
      · simp [h]
      · simp [h]
    | cons m M =>
      right
      rw [hd] at ih
      simpa using ih

/-- R24's invariants 1 and 2 hold of every reduced sequence (R195). -/
@[simp] theorem reducedForm_reduce (L : List Limb) : reducedForm (reduce L) = true := by
  have h := dropTopZeros_last L
  rw [reduce]
  cases hd : dropTopZeros L with
  | nil => rfl
  | cons m M =>
    rw [hd] at h
    simp only [reducedForm, List.isEmpty_cons, Bool.not_false, Bool.true_and, Bool.or_eq_true, bne_iff_ne]
    right
    simpa using h

theorem reducedForm_iff (L : List Limb) :
    reducedForm L = true ↔ L ≠ [] ∧ (L.length = 1 ∨ L.getLastD 0#32 ≠ 0#32) := by
  simp [reducedForm]

@[simp] theorem reducedForm_single (l : Limb) : reducedForm [l] = true := rfl

/-! ### bit lengths -/

@[simp] theorem bitlen_zero : bitlen 0 = 0 := rfl

/-- `bitlen(n) <= k` exactly when `n < 2^k`. -/
theorem bitlen_le_iff (n k : Nat) : bitlen n ≤ k ↔ n < 2 ^ k := by
  unfold bitlen
  split
  · rename_i h; subst h; simp
  · rename_i h
    rw [Nat.add_one_le_iff, Nat.log2_lt h]

theorem lt_bitlen_iff (n k : Nat) : k < bitlen n ↔ 2 ^ k ≤ n := by
  rw [← Nat.not_le, bitlen_le_iff, Nat.not_lt]

theorem lt_two_pow_bitlen (n : Nat) : n < 2 ^ bitlen n := (bitlen_le_iff n _).mp le_rfl

theorem bitlen_pos {n : Nat} (h : n ≠ 0) : 0 < bitlen n := by
  unfold bitlen; simp [h]

theorem two_pow_le_of_bitlen {n : Nat} (h : n ≠ 0) : 2 ^ (bitlen n - 1) ≤ n := by
  rw [← lt_bitlen_iff]
  have := bitlen_pos h
  omega

/-- The bit length of a non-zero number is one more than its `log2` (R12). -/
theorem bitlen_eq_log2 {n : Nat} (h : n ≠ 0) : bitlen n = Nat.log2 n + 1 := by
  unfold bitlen; simp [h]

theorem bitlen_mono {a b : Nat} (h : a ≤ b) : bitlen a ≤ bitlen b := by
  rw [bitlen_le_iff]
  exact lt_of_le_of_lt h (lt_two_pow_bitlen b)

theorem bitlen_mul_two_pow {n : Nat} (h : n ≠ 0) (k : Nat) : bitlen (n * 2 ^ k) = bitlen n + k := by
  apply le_antisymm
  · rw [bitlen_le_iff, pow_add]
    exact Nat.mul_lt_mul_of_pos_right (lt_two_pow_bitlen n) (by positivity)
  · have h1 : bitlen n + k - 1 < bitlen (n * 2 ^ k) := by
      rw [lt_bitlen_iff]
      have h2 := two_pow_le_of_bitlen h
      have h3 := bitlen_pos h
      have h4 : bitlen n + k - 1 = (bitlen n - 1) + k := by omega
      rw [h4, pow_add]
      exact Nat.mul_le_mul_right _ h2
    have := bitlen_pos h
    omega

/-! ### limbs -/

@[simp] theorem length_lowLimbs (k n : Nat) : (lowLimbs k n).length = k := by
  induction k generalizing n with
  | zero => rfl
  | succ k ih => simp [lowLimbs, ih]

theorem val_lowLimbs (k n : Nat) : val (lowLimbs k n) = n % 2 ^ (32 * k) := by
  induction k generalizing n with
  | zero => simp [lowLimbs, Nat.mod_one]
  | succ k ih =>
    have h : 2 ^ (32 * (k + 1)) = 2 ^ 32 * 2 ^ (32 * k) := by rw [← pow_add]; congr 1; omega
    rw [lowLimbs, val_cons, ih, BitVec.toNat_ofNat, h, Nat.mod_mul]

/-- The value of `limbs(n)` is `n` (R12). -/
@[simp] theorem val_limbs (n : Nat) : val (limbs n) = n := by
  unfold limbs
  split
  · rename_i h; subst h; rfl
  · rw [val_lowLimbs, Nat.mod_eq_of_lt]
    rw [← bitlen_le_iff]
    omega

/-- A number of limbs whose value needs the top one is reduced. -/
theorem reducedForm_of_le_val {L : List Limb} (h : L ≠ []) (hv : 2 ^ (32 * (L.length - 1)) ≤ val L) :
    reducedForm L = true := by
  rw [reducedForm_iff]
  refine ⟨h, ?_⟩
  right
  intro h0
  have hsplit : L.dropLast ++ [L.getLast h] = L := List.dropLast_append_getLast h
  have hlast : L.getLast h = 0#32 := by
    rw [List.getLastD_eq_getLast?, List.getLast?_eq_some_getLast h] at h0
    simpa using h0
  have h1 : val L = val L.dropLast := by
    conv_lhs => rw [← hsplit, val_append, hlast]
    simp
  have h2 := val_lt L.dropLast
  rw [List.length_dropLast] at h2
  omega

/-- A reduced sequence of more than one limb needs its top limb. -/
theorem le_val_of_reducedForm {L : List Limb} (hr : reducedForm L = true) (hl : L.length ≠ 1) :
    2 ^ (32 * (L.length - 1)) ≤ val L := by
  rw [reducedForm_iff] at hr
  obtain ⟨h, hor⟩ := hr
  have h0 : L.getLastD 0#32 ≠ 0#32 := by tauto
  have hsplit : L.dropLast ++ [L.getLast h] = L := List.dropLast_append_getLast h
  have hlast : L.getLast h ≠ 0#32 := by
    rw [List.getLastD_eq_getLast?, List.getLast?_eq_some_getLast h] at h0
    simpa using h0
  have hpos : 1 ≤ (L.getLast h).toNat := by
    rcases Nat.eq_zero_or_pos (L.getLast h).toNat with hz | hz
    · exact absurd (BitVec.eq_of_toNat_eq (by simpa using hz)) hlast
    · exact hz
  have h1 : val L = val L.dropLast + 2 ^ (32 * (L.length - 1)) * (L.getLast h).toNat := by
    conv_lhs => rw [← hsplit, val_append]
    simp
  rw [h1]
  exact le_trans (Nat.le_mul_of_pos_right _ hpos) (Nat.le_add_left _ _)

/-- `len(limbs(n)) = (bitlen(n) + 31) div 32` for `n > 0` (R12). -/
theorem length_limbs {n : Nat} (h : n ≠ 0) : (limbs n).length = (bitlen n + 31) / 32 := by
  simp [limbs, h]

@[simp] theorem limbs_zero : limbs 0 = [0#32] := rfl

theorem limbs_ne_nil (n : Nat) : limbs n ≠ [] := by
  by_cases h : n = 0
  · simp [h]
  · rw [← List.length_pos_iff, length_limbs h]
    have := bitlen_pos h
    omega

/-- `limbs(n)` is reduced (R12). -/
@[simp] theorem reducedForm_limbs (n : Nat) : reducedForm (limbs n) = true := by
  by_cases h : n = 0
  · subst h; rfl
  · apply reducedForm_of_le_val (limbs_ne_nil n)
    rw [val_limbs, length_limbs h, ← lt_bitlen_iff]
    have := bitlen_pos h
    omega

/-- The length of a reduced sequence is a function of its value. -/
theorem length_of_reducedForm {L : List Limb} (hr : reducedForm L = true) : L.length = (limbs (val L)).length := by
  have hne : L ≠ [] := ((reducedForm_iff L).mp hr).1
  have hpos : 0 < L.length := List.length_pos_iff.mpr hne
  have hlt := val_lt L
  rw [← bitlen_le_iff] at hlt
  by_cases h : val L = 0
  · rw [h, limbs_zero]
    by_contra hc
    have := le_val_of_reducedForm hr (by simpa using hc)
    rw [h] at this
    have h2 : 0 < 2 ^ (32 * (L.length - 1)) := by positivity
    omega
  · rw [length_limbs h]
    by_cases h1 : L.length = 1
    · have := bitlen_pos h
      rw [h1] at hlt ⊢
      omega
    · have h2 := le_val_of_reducedForm hr h1
      rw [← lt_bitlen_iff] at h2
      omega

/-- `V[i] = limbs(val(V[i]))` always (R24): a reduced sequence is a function of its value. -/
theorem limbs_val {L : List Limb} (hr : reducedForm L = true) : limbs (val L) = L :=
  eq_of_val_eq (length_of_reducedForm hr).symm (val_limbs _)

/-- Two reduced sequences with the same value are the same (R24). -/
theorem eq_of_reducedForm {A B : List Limb} (ha : reducedForm A = true) (hb : reducedForm B = true)
    (h : val A = val B) : A = B := by
  rw [← limbs_val ha, ← limbs_val hb, h]

/-- Reduce gives the reduced sequence of the value. -/
theorem reduce_eq_limbs (L : List Limb) : reduce L = limbs (val L) := by
  rw [← limbs_val (reducedForm_reduce L), val_reduce]

/-- A sequence that is reduced already is its own reduce. -/
theorem reduce_of_reducedForm {L : List Limb} (h : reducedForm L = true) : reduce L = L := by
  rw [reduce_eq_limbs, limbs_val h]

/-- `limbs(n)` has at most `k` limbs exactly when `bitlen(n) <= 32 * k` (R12, R285), for `k > 0`. -/
theorem length_limbs_le_iff (n : Nat) {k : Nat} (hk : 0 < k) : (limbs n).length ≤ k ↔ bitlen n ≤ 32 * k := by
  by_cases h : n = 0
  · subst h; simp; omega
  · rw [length_limbs h]; omega

/-! ### single bits -/

/-- Bit `i` of a limb sequence is bit `i` of its value (R175). -/
theorem seqBit_eq_testBit (L : List Limb) (i : Nat) : seqBit L i = (val L).testBit i := by
  induction L generalizing i with
  | nil => simp [seqBit]
  | cons l L ih =>
    rw [val_cons, Nat.add_comm, Nat.testBit_two_pow_mul_add _ l.isLt]
    by_cases h : i < 32
    · have h1 : i / 32 = 0 := by omega
      have h2 : i % 32 = i := by omega
      simp [seqBit, h1, h2, h, BitVec.getLsbD]
    · have h1 : i / 32 = (i - 32) / 32 + 1 := by omega
      have h2 : i % 32 = (i - 32) % 32 := by omega
      have := ih (i - 32)
      simp only [seqBit] at this ⊢
      rw [if_neg h, ← this, h1, h2]
      simp

/-! ### the lowest set bit -/

/-- What the search for the lowest set bit answers when one of the bits searched is set. -/
theorem lowestBitFrom_spec (n : Nat) (fuel i : Nat) (h : ∃ j, i ≤ j ∧ j < i + fuel ∧ n.testBit j = true) :
    i ≤ lowestBitFrom n fuel i ∧ n.testBit (lowestBitFrom n fuel i) = true ∧
      ∀ j, i ≤ j → j < lowestBitFrom n fuel i → n.testBit j = false := by
  induction fuel generalizing i with
  | zero => obtain ⟨j, h1, h2, -⟩ := h; omega
  | succ fuel ih =>
    obtain ⟨j, h1, h2, h3⟩ := h
    rw [lowestBitFrom]
    cases hb : n.testBit i with
    | true => simp [hb]; intro j h4 h5; omega
    | false =>
      have hj : j ≠ i := by rintro rfl; simp [hb] at h3
      obtain ⟨h4, h5, h6⟩ := ih (i + 1) ⟨j, by omega, by omega, h3⟩
      refine ⟨by simp; omega, by simpa using h5, ?_⟩
      intro k h7 h8
      rcases eq_or_ne k i with rfl | hk
      · exact hb
      · exact h6 k (by omega) (by simpa using h8)

/-- `ctz(n)` for `n > 0` is the index of the lowest set bit (R12). -/
theorem ctz_spec {n : Nat} (h : n ≠ 0) : n.testBit (ctz n) = true ∧ ∀ j < ctz n, n.testBit j = false := by
  have hb : n.testBit (bitlen n - 1) = true := by
    have h1 := two_pow_le_of_bitlen h
    have h2 := lt_two_pow_bitlen n
    have h3 := bitlen_pos h
    rw [Nat.testBit_eq_decide_div_mod_eq, decide_eq_true_eq]
    have h4 : 2 ^ bitlen n = 2 * 2 ^ (bitlen n - 1) := by rw [← pow_succ']; congr 1; omega
    have h5 : n / 2 ^ (bitlen n - 1) = 1 := by
      apply Nat.div_eq_of_lt_le <;> omega
    omega
  have h3 := bitlen_pos h
  obtain ⟨-, h1, h2⟩ := lowestBitFrom_spec n (bitlen n) 0 ⟨bitlen n - 1, by omega, by omega, hb⟩
  exact ⟨h1, fun j hj => h2 j (by omega) hj⟩

end Sys2Proof.Machine
end

