-- ==== Sys2Proof/Laws/State.lean ====
section
/-! SUPPORT. The small lemmas of Block and State: what each update leaves in each field, true by unfolding, and what the
register and flag reads give after each update. Later proofs cite these and unfold no update. -/

namespace Sys2Proof.Machine

/-! ### The machine's state: its block and the parameters of its step -/

@[simp] theorem withBlock_toBlock (s : State) (b : Block) : (s.withBlock b).toBlock = b := rfl
@[simp] theorem withBlock_cap (s : State) (b : Block) : (s.withBlock b).cap = s.cap := rfl
@[simp] theorem withBlock_pending (s : State) (b : Block) : (s.withBlock b).pending = s.pending := rfl
@[simp] theorem withBlock_reply (s : State) (b : Block) : (s.withBlock b).reply = s.reply := rfl
@[simp] theorem withBlock_toStepParams (s : State) (b : Block) : (s.withBlock b).toStepParams = s.toStepParams := rfl
@[simp] theorem withBlock_withBlock (s : State) (b c : Block) : (s.withBlock b).withBlock c = s.withBlock c := rfl
@[simp] theorem withBlock_self (s : State) : s.withBlock s.toBlock = s := rfl

@[simp] theorem faultEntry_toBlock (s : State) (k : Cause) (w : Word) :
    (faultEntry k w s).toBlock = s.toBlock.faultEntry k w := rfl
@[simp] theorem faultEntry_cap (s : State) (k : Cause) (w : Word) : (faultEntry k w s).cap = s.cap := rfl
@[simp] theorem faultEntry_pending (s : State) (k : Cause) (w : Word) : (faultEntry k w s).pending = s.pending := rfl
@[simp] theorem faultEntry_reply (s : State) (k : Cause) (w : Word) : (faultEntry k w s).reply = s.reply := rfl
@[simp] theorem faultEntry_toStepParams (s : State) (k : Cause) (w : Word) :
    (faultEntry k w s).toStepParams = s.toStepParams := rfl

@[simp] theorem resetBlock_toBlock (s : State) : (resetBlock s).toBlock = Block.reset := rfl
@[simp] theorem resetBlock_cap (s : State) : (resetBlock s).cap = s.cap := rfl
@[simp] theorem resetBlock_pending (s : State) : (resetBlock s).pending = s.pending := rfl
@[simp] theorem resetBlock_reply (s : State) : (resetBlock s).reply = s.reply := rfl
@[simp] theorem resetBlock_toStepParams (s : State) : (resetBlock s).toStepParams = s.toStepParams := rfl

@[simp] theorem withIssue_toBlock (s : State) (w : Word) : (s.withIssue w).toBlock = s.toBlock := rfl
@[simp] theorem withIssue_cap (s : State) (w : Word) : (s.withIssue w).cap = s.cap := rfl
@[simp] theorem withIssue_pending (s : State) (w : Word) : (s.withIssue w).pending = .issue w :: s.pending := rfl
@[simp] theorem withIssue_reply (s : State) (w : Word) : (s.withIssue w).reply = s.reply := rfl

/-- Two states with the same block and the same parameters are equal. -/
theorem state_ext {s t : State} (hb : s.toBlock = t.toBlock) (hp : s.toStepParams = t.toStepParams) : s = t := by
  cases s; cases t
  cases hb; cases hp
  rfl

@[simp] theorem reset_toBlock : State.reset.toBlock = Block.reset := rfl

/-! ### The block: one lemma per field per update -/

@[simp] theorem writeX_v (b : Block) (r : XReg) (l : Limb) : (b.writeX r l).v = b.v := rfl
@[simp] theorem writeX_ov (b : Block) (r : XReg) (l : Limb) : (b.writeX r l).ov = b.ov := rfl
@[simp] theorem writeX_status (b : Block) (r : XReg) (l : Limb) : (b.writeX r l).status = b.status := rfl
@[simp] theorem writeX_cause (b : Block) (r : XReg) (l : Limb) : (b.writeX r l).cause = b.cause := rfl
@[simp] theorem writeX_fcmd (b : Block) (r : XReg) (l : Limb) : (b.writeX r l).fcmd = b.fcmd := rfl

@[simp] theorem writeV_x (b : Block) (r : VReg) (L : List Limb) : (b.writeV r L).x = b.x := rfl
@[simp] theorem writeV_ov (b : Block) (r : VReg) (L : List Limb) : (b.writeV r L).ov = b.ov := rfl
@[simp] theorem writeV_status (b : Block) (r : VReg) (L : List Limb) : (b.writeV r L).status = b.status := rfl
@[simp] theorem writeV_cause (b : Block) (r : VReg) (L : List Limb) : (b.writeV r L).cause = b.cause := rfl
@[simp] theorem writeV_fcmd (b : Block) (r : VReg) (L : List Limb) : (b.writeV r L).fcmd = b.fcmd := rfl

@[simp] theorem writeOV_x (b : Block) (l : Limb) : (b.writeOV l).x = b.x := rfl
@[simp] theorem writeOV_v (b : Block) (l : Limb) : (b.writeOV l).v = b.v := rfl
@[simp] theorem writeOV_status (b : Block) (l : Limb) : (b.writeOV l).status = b.status := rfl
@[simp] theorem writeOV_cause (b : Block) (l : Limb) : (b.writeOV l).cause = b.cause := rfl
@[simp] theorem writeOV_fcmd (b : Block) (l : Limb) : (b.writeOV l).fcmd = b.fcmd := rfl
@[simp] theorem writeOV_ov (b : Block) (l : Limb) : (b.writeOV l).ov = l := rfl

@[simp] theorem setC_x (b : Block) (c : Bool) : (b.setC c).x = b.x := rfl
@[simp] theorem setC_v (b : Block) (c : Bool) : (b.setC c).v = b.v := rfl
@[simp] theorem setC_ov (b : Block) (c : Bool) : (b.setC c).ov = b.ov := rfl
@[simp] theorem setC_cause (b : Block) (c : Bool) : (b.setC c).cause = b.cause := rfl
@[simp] theorem setC_fcmd (b : Block) (c : Bool) : (b.setC c).fcmd = b.fcmd := rfl

@[simp] theorem setCompare_x (b : Block) (o : Ordering) : (b.setCompare o).x = b.x := rfl
@[simp] theorem setCompare_v (b : Block) (o : Ordering) : (b.setCompare o).v = b.v := rfl
@[simp] theorem setCompare_ov (b : Block) (o : Ordering) : (b.setCompare o).ov = b.ov := rfl
@[simp] theorem setCompare_cause (b : Block) (o : Ordering) : (b.setCompare o).cause = b.cause := rfl
@[simp] theorem setCompare_fcmd (b : Block) (o : Ordering) : (b.setCompare o).fcmd = b.fcmd := rfl

@[simp] theorem setT_x (b : Block) (c : Bool) : (b.setT c).x = b.x := rfl
@[simp] theorem setT_v (b : Block) (c : Bool) : (b.setT c).v = b.v := rfl
@[simp] theorem setT_ov (b : Block) (c : Bool) : (b.setT c).ov = b.ov := rfl
@[simp] theorem setT_cause (b : Block) (c : Bool) : (b.setT c).cause = b.cause := rfl
@[simp] theorem setT_fcmd (b : Block) (c : Bool) : (b.setT c).fcmd = b.fcmd := rfl

@[simp] theorem setF_x (b : Block) : (b.setF).x = b.x := rfl
@[simp] theorem setF_v (b : Block) : (b.setF).v = b.v := rfl
@[simp] theorem setF_ov (b : Block) : (b.setF).ov = b.ov := rfl
@[simp] theorem setF_cause (b : Block) : (b.setF).cause = b.cause := rfl
@[simp] theorem setF_fcmd (b : Block) : (b.setF).fcmd = b.fcmd := rfl

@[simp] theorem block_faultEntry_x (b : Block) (k : Cause) (w : Word) : (b.faultEntry k w).x = b.x := rfl
@[simp] theorem block_faultEntry_v (b : Block) (k : Cause) (w : Word) : (b.faultEntry k w).v = b.v := rfl
@[simp] theorem block_faultEntry_ov (b : Block) (k : Cause) (w : Word) : (b.faultEntry k w).ov = b.ov := rfl
@[simp] theorem block_faultEntry_cause (b : Block) (k : Cause) (w : Word) : (b.faultEntry k w).cause = k.code := rfl
@[simp] theorem block_faultEntry_fcmd (b : Block) (k : Cause) (w : Word) : (b.faultEntry k w).fcmd = w := rfl

/-! ### The block: the register and flag reads after each update -/

@[simp] theorem writeX_readV (b : Block) (r : XReg) (l : Limb) (q : VReg) : (b.writeX r l).readV q = b.readV q := rfl
@[simp] theorem writeX_flagC (b : Block) (r : XReg) (l : Limb) : (b.writeX r l).flagC = b.flagC := rfl
@[simp] theorem writeX_flagEQ (b : Block) (r : XReg) (l : Limb) : (b.writeX r l).flagEQ = b.flagEQ := rfl
@[simp] theorem writeX_flagLT (b : Block) (r : XReg) (l : Limb) : (b.writeX r l).flagLT = b.flagLT := rfl
@[simp] theorem writeX_flagT (b : Block) (r : XReg) (l : Limb) : (b.writeX r l).flagT = b.flagT := rfl
@[simp] theorem writeX_flagF (b : Block) (r : XReg) (l : Limb) : (b.writeX r l).flagF = b.flagF := rfl

@[simp] theorem writeV_readX (b : Block) (r : VReg) (L : List Limb) (q : XReg) :
    (b.writeV r L).readX q = b.readX q := rfl
@[simp] theorem writeV_flagC (b : Block) (r : VReg) (L : List Limb) : (b.writeV r L).flagC = b.flagC := rfl
@[simp] theorem writeV_flagEQ (b : Block) (r : VReg) (L : List Limb) : (b.writeV r L).flagEQ = b.flagEQ := rfl
@[simp] theorem writeV_flagLT (b : Block) (r : VReg) (L : List Limb) : (b.writeV r L).flagLT = b.flagLT := rfl
@[simp] theorem writeV_flagT (b : Block) (r : VReg) (L : List Limb) : (b.writeV r L).flagT = b.flagT := rfl
@[simp] theorem writeV_flagF (b : Block) (r : VReg) (L : List Limb) : (b.writeV r L).flagF = b.flagF := rfl

@[simp] theorem writeOV_readX (b : Block) (l : Limb) (q : XReg) : (b.writeOV l).readX q = b.readX q := rfl
@[simp] theorem writeOV_readV (b : Block) (l : Limb) (q : VReg) : (b.writeOV l).readV q = b.readV q := rfl
@[simp] theorem writeOV_flagC (b : Block) (l : Limb) : (b.writeOV l).flagC = b.flagC := rfl
@[simp] theorem writeOV_flagEQ (b : Block) (l : Limb) : (b.writeOV l).flagEQ = b.flagEQ := rfl
@[simp] theorem writeOV_flagLT (b : Block) (l : Limb) : (b.writeOV l).flagLT = b.flagLT := rfl
@[simp] theorem writeOV_flagT (b : Block) (l : Limb) : (b.writeOV l).flagT = b.flagT := rfl
@[simp] theorem writeOV_flagF (b : Block) (l : Limb) : (b.writeOV l).flagF = b.flagF := rfl

@[simp] theorem setC_readX (b : Block) (c : Bool) (q : XReg) : (b.setC c).readX q = b.readX q := rfl
@[simp] theorem setC_readV (b : Block) (c : Bool) (q : VReg) : (b.setC c).readV q = b.readV q := rfl

@[simp] theorem setCompare_readX (b : Block) (o : Ordering) (q : XReg) : (b.setCompare o).readX q = b.readX q := rfl
@[simp] theorem setCompare_readV (b : Block) (o : Ordering) (q : VReg) : (b.setCompare o).readV q = b.readV q := rfl

@[simp] theorem setT_readX (b : Block) (c : Bool) (q : XReg) : (b.setT c).readX q = b.readX q := rfl
@[simp] theorem setT_readV (b : Block) (c : Bool) (q : VReg) : (b.setT c).readV q = b.readV q := rfl

@[simp] theorem setF_readX (b : Block) (q : XReg) : (b.setF).readX q = b.readX q := rfl
@[simp] theorem setF_readV (b : Block) (q : VReg) : (b.setF).readV q = b.readV q := rfl

@[simp] theorem block_faultEntry_readX (b : Block) (k : Cause) (w : Word) (q : XReg) :
    (b.faultEntry k w).readX q = b.readX q := rfl
@[simp] theorem block_faultEntry_readV (b : Block) (k : Cause) (w : Word) (q : VReg) :
    (b.faultEntry k w).readV q = b.readV q := rfl

@[simp] theorem reset_readX (q : XReg) : Block.reset.readX q = 0#32 := by simp [Block.readX, Block.reset]
@[simp] theorem reset_readV (q : VReg) : Block.reset.readV q = [0#32] := by simp [Block.readV, Block.reset]

/-- Writing a scalar register changes that one and no other. -/
@[simp] theorem writeX_readX (b : Block) (r q : XReg) (l : Limb) :
    (b.writeX r l).readX q = if q = r then l else b.readX q := by
  simp only [Block.writeX, Block.readX, Fin.getElem_fin, Vector.getElem_set, Fin.ext_iff, eq_comm]

/-- Writing a BigNat register changes that one and no other. -/
@[simp] theorem writeV_readV (b : Block) (r q : VReg) (L : List Limb) :
    (b.writeV r L).readV q = if q = r then L else b.readV q := by
  simp only [Block.writeV, Block.readV, Fin.getElem_fin, Vector.getElem_set, Fin.ext_iff, eq_comm]

/-- Writing back what a scalar register holds changes nothing. -/
theorem writeX_self (b : Block) (r : XReg) : b.writeX r (b.readX r) = b := by
  simp [Block.writeX, Block.readX]

/-- Writing back what a BigNat register holds changes nothing. -/
theorem writeV_self (b : Block) (r : VReg) : b.writeV r (b.readV r) = b := by
  simp [Block.writeV, Block.readV]

/-- Two scalar register files that read alike are equal. -/
theorem x_ext {a b : Vector Limb 8} (h : ∀ r : XReg, a[r] = b[r]) : a = b :=
  Vector.ext fun i hi => h ⟨i, hi⟩

/-- Two BigNat register files that read alike are equal. -/
theorem v_ext {a b : Vector (List Limb) 8} (h : ∀ r : VReg, a[r] = b[r]) : a = b :=
  Vector.ext fun i hi => h ⟨i, hi⟩

/-- Bit `i` of STATUS after bit `n` is put to `b`: `b` at `n`, the old bit elsewhere. -/
theorem getLsbD_putBit (w : Word) (n i : Nat) (b : Bool) (hn : n < 32) :
    (putBit w n b).getLsbD i = if i = n then b else w.getLsbD i := by
  rcases eq_or_ne i n with rfl | h
  · cases b <;> simp [putBit, hn]
  · rw [if_neg h]
    by_cases hi : i < 32
    · cases b
      · simp only [putBit, Bool.false_eq_true, if_false, BitVec.getLsbD_and, BitVec.getLsbD_not, hi, decide_true,
          BitVec.getLsbD_shiftLeft, BitVec.getLsbD_one, Bool.true_and]
        simp
        omega
      · simp only [putBit, if_true, BitVec.getLsbD_or, hi, decide_true,
          BitVec.getLsbD_shiftLeft, BitVec.getLsbD_one, Bool.true_and]
        simp
        omega
    · rw [BitVec.getLsbD_of_ge _ _ (by omega), BitVec.getLsbD_of_ge _ _ (by omega)]

@[simp] theorem setC_flagC (b : Block) (c : Bool) : (b.setC c).flagC = c := by
  simp only [Block.flagC, Block.setC]
  rw [getLsbD_putBit _ _ _ _ (by decide)]
  rfl
@[simp] theorem setC_flagEQ (b : Block) (c : Bool) : (b.setC c).flagEQ = b.flagEQ := by
  simp only [Block.flagEQ, Block.setC]
  rw [getLsbD_putBit _ _ _ _ (by decide)]
  rfl
@[simp] theorem setC_flagLT (b : Block) (c : Bool) : (b.setC c).flagLT = b.flagLT := by
  simp only [Block.flagLT, Block.setC]
  rw [getLsbD_putBit _ _ _ _ (by decide)]
  rfl
@[simp] theorem setC_flagT (b : Block) (c : Bool) : (b.setC c).flagT = b.flagT := by
  simp only [Block.flagT, Block.setC]
  rw [getLsbD_putBit _ _ _ _ (by decide)]
  rfl
@[simp] theorem setC_flagF (b : Block) (c : Bool) : (b.setC c).flagF = b.flagF := by
  simp only [Block.flagF, Block.setC]
  rw [getLsbD_putBit _ _ _ _ (by decide)]
  rfl

@[simp] theorem setT_flagC (b : Block) (c : Bool) : (b.setT c).flagC = b.flagC := by
  simp only [Block.flagC, Block.setT]
  rw [getLsbD_putBit _ _ _ _ (by decide)]
  rfl
@[simp] theorem setT_flagEQ (b : Block) (c : Bool) : (b.setT c).flagEQ = b.flagEQ := by
  simp only [Block.flagEQ, Block.setT]
  rw [getLsbD_putBit _ _ _ _ (by decide)]
  rfl
@[simp] theorem setT_flagLT (b : Block) (c : Bool) : (b.setT c).flagLT = b.flagLT := by
  simp only [Block.flagLT, Block.setT]
  rw [getLsbD_putBit _ _ _ _ (by decide)]
  rfl
@[simp] theorem setT_flagT (b : Block) (c : Bool) : (b.setT c).flagT = c := by
  simp only [Block.flagT, Block.setT]
  rw [getLsbD_putBit _ _ _ _ (by decide)]
  rfl
@[simp] theorem setT_flagF (b : Block) (c : Bool) : (b.setT c).flagF = b.flagF := by
  simp only [Block.flagF, Block.setT]
  rw [getLsbD_putBit _ _ _ _ (by decide)]
  rfl

@[simp] theorem setCompare_flagC (b : Block) (o : Ordering) : (b.setCompare o).flagC = b.flagC := by
  simp only [Block.flagC, Block.setCompare]
  rw [getLsbD_putBit _ _ _ _ (by decide), getLsbD_putBit _ _ _ _ (by decide)]
  rfl
@[simp] theorem setCompare_flagEQ (b : Block) (o : Ordering) : (b.setCompare o).flagEQ = (o == .eq) := by
  simp only [Block.flagEQ, Block.setCompare]
  rw [getLsbD_putBit _ _ _ _ (by decide), getLsbD_putBit _ _ _ _ (by decide)]
  rfl
@[simp] theorem setCompare_flagLT (b : Block) (o : Ordering) : (b.setCompare o).flagLT = (o == .lt) := by
  simp only [Block.flagLT, Block.setCompare]
  rw [getLsbD_putBit _ _ _ _ (by decide), getLsbD_putBit _ _ _ _ (by decide)]
  rfl
@[simp] theorem setCompare_flagT (b : Block) (o : Ordering) : (b.setCompare o).flagT = b.flagT := by
  simp only [Block.flagT, Block.setCompare]
  rw [getLsbD_putBit _ _ _ _ (by decide), getLsbD_putBit _ _ _ _ (by decide)]
  rfl
@[simp] theorem setCompare_flagF (b : Block) (o : Ordering) : (b.setCompare o).flagF = b.flagF := by
  simp only [Block.flagF, Block.setCompare]
  rw [getLsbD_putBit _ _ _ _ (by decide), getLsbD_putBit _ _ _ _ (by decide)]
  rfl

@[simp] theorem setF_flagC (b : Block) : (b.setF).flagC = b.flagC := by
  simp only [Block.flagC, Block.setF]
  rw [getLsbD_putBit _ _ _ _ (by decide)]
  rfl
@[simp] theorem setF_flagEQ (b : Block) : (b.setF).flagEQ = b.flagEQ := by
  simp only [Block.flagEQ, Block.setF]
  rw [getLsbD_putBit _ _ _ _ (by decide)]
  rfl
@[simp] theorem setF_flagLT (b : Block) : (b.setF).flagLT = b.flagLT := by
  simp only [Block.flagLT, Block.setF]
  rw [getLsbD_putBit _ _ _ _ (by decide)]
  rfl
@[simp] theorem setF_flagT (b : Block) : (b.setF).flagT = b.flagT := by
  simp only [Block.flagT, Block.setF]
  rw [getLsbD_putBit _ _ _ _ (by decide)]
  rfl
@[simp] theorem setF_flagF (b : Block) : (b.setF).flagF = true := by
  simp only [Block.flagF, Block.setF]
  rw [getLsbD_putBit _ _ _ _ (by decide)]
  rfl

@[simp] theorem block_faultEntry_flagC (b : Block) (k : Cause) (w : Word) :
    (b.faultEntry k w).flagC = b.flagC := setF_flagC _
@[simp] theorem block_faultEntry_flagEQ (b : Block) (k : Cause) (w : Word) :
    (b.faultEntry k w).flagEQ = b.flagEQ := setF_flagEQ _
@[simp] theorem block_faultEntry_flagLT (b : Block) (k : Cause) (w : Word) :
    (b.faultEntry k w).flagLT = b.flagLT := setF_flagLT _
@[simp] theorem block_faultEntry_flagT (b : Block) (k : Cause) (w : Word) :
    (b.faultEntry k w).flagT = b.flagT := setF_flagT _
@[simp] theorem block_faultEntry_flagF (b : Block) (k : Cause) (w : Word) :
    (b.faultEntry k w).flagF = true := setF_flagF _

end Sys2Proof.Machine
end

