-- ==== Sys2Proof/Laws/Ops.lean ====
section
/-! SUPPORT. What each shared operation can answer, said once: raising a fault, the capacity test, the limb adder, the
limb shift, and the transactions. Later proofs cite these and unfold no operation. -/

namespace Sys2Proof.Machine

/-- Raising a fault is fault entry with the command's own word (R13, R288). -/
@[simp] theorem raise_eq (i : Instr) (k : Cause) (b : Block) : raise i k b = b.faultEntry k (encode i) := rfl

/-- The capacity test (R285): the sequence is written when it fits, else CapacityOverflow. -/
theorem commitV_cases (cap : Nat) (i : Instr) (vd : VReg) (R : List Limb) (b : Block) :
    (R.length ≤ cap ∧ commitV cap i vd R b = b.writeV vd R) ∨
      (cap < R.length ∧ commitV cap i vd R b = b.faultEntry .capacityOverflow (encode i)) := by
  by_cases hc : R.length ≤ cap
  · exact .inl ⟨hc, by simp [commitV, fitsSeq, hc]⟩
  · exact .inr ⟨by omega, by simp [commitV, fitsSeq, hc]⟩

theorem commitV_fits {cap : Nat} {i : Instr} {vd : VReg} {R : List Limb} {b : Block} (h : R.length ≤ cap) :
    commitV cap i vd R b = b.writeV vd R := by
  simp [commitV, fitsSeq, h]

theorem commitV_overflows {cap : Nat} {i : Instr} {vd : VReg} {R : List Limb} {b : Block} (h : cap < R.length) :
    commitV cap i vd R b = b.faultEntry .capacityOverflow (encode i) := by
  simp [commitV, fitsSeq, Nat.not_le.mpr h]

/-- ADDL and ADCL write one scalar register and C (R131, R132). -/
theorem addLimbs_eq (xd xs : XReg) (c : Bool) (b : Block) :
    addLimbs xd xs c b =
      (b.writeX xd (limbAdd (b.readX xd) (b.readX xs) c).1).setC (limbAdd (b.readX xd) (b.readX xs) c).2 := rfl

/-- SHLL and SHLLO write one scalar register and OV, or raise OperandRange (R166, R167). -/
theorem shiftLimbLeft_cases (i : Instr) (xd xs : XReg) (ov : Limb) (b : Block) :
    ((b.readX xs).toNat < 32 ∧
      shiftLimbLeft i xd xs ov b = (b.writeX xd (shlStep (b.readX xd) (b.readX xs).toNat ov).1).writeOV
        (shlStep (b.readX xd) (b.readX xs).toNat ov).2) ∨
      (32 ≤ (b.readX xs).toNat ∧ shiftLimbLeft i xd xs ov b = b.faultEntry .operandRange (encode i)) := by
  by_cases hc : (b.readX xs).toNat < 32
  · exact .inl ⟨hc, by simp [shiftLimbLeft, shiftCountLegal, Block.countX, hc]⟩
  · exact .inr ⟨by omega, by simp [shiftLimbLeft, shiftCountLegal, Block.countX, hc]⟩

/-- What the step of R291 can do to the block: nothing while faulted, ReservedEncoding for an illegal word, and else the
command's own rule. -/
theorem block_step_cases (cap : Nat) (b : Block) (w : Word) :
    (b.flagF = true ∧ Block.step cap b w = b) ∨
      (b.flagF = false ∧ decode w = .reservedEncoding ∧ Block.step cap b w = b.faultEntry .reservedEncoding w) ∨
      (b.flagF = false ∧ ∃ i, decode w = .command i ∧ Block.step cap b w = Block.exec cap i b) := by
  unfold Block.step
  cases hf : b.flagF with
  | true => exact .inl ⟨rfl, by simp⟩
  | false =>
    cases hd : decode w with
    | reservedEncoding => exact .inr (.inl ⟨rfl, rfl, by simp⟩)
    | command i => exact .inr (.inr ⟨rfl, i, rfl, by simp⟩)

/-- What Issue can answer (R291): nothing changes while faulted, an illegal word is ReservedEncoding, a command has its
own effect. -/
theorem issue_next {w : Word} {s t : State} (h : issue w s = .next t) :
    (s.flagF = true ∧ t = s) ∨
      (s.flagF = false ∧ decode w = .reservedEncoding ∧ t = faultEntry .reservedEncoding w s) ∨
      (s.flagF = false ∧ ∃ i, decode w = .command i ∧ exec i s = .next t) := by
  unfold issue at h
  cases hf : s.flagF with
  | true => rw [hf, if_pos rfl] at h; exact .inl ⟨rfl, (Host.Outcome.next.inj h).symm⟩
  | false =>
    rw [hf, if_neg (by simp)] at h
    cases hd : decode w with
    | reservedEncoding => rw [hd] at h; exact .inr (.inl ⟨rfl, rfl, (Host.Outcome.next.inj h).symm⟩)
    | command i => rw [hd] at h; exact .inr (.inr ⟨rfl, i, rfl, h⟩)

/-- What a step can answer (R296): nothing asked, or one of the three transactions. -/
theorem step_next {s t : State} (h : step s = .next t) :
    (s.pending = [] ∧ t = s) ∨
      (∃ w rest, s.pending = .issue w :: rest ∧ issue w { s with pending := rest, reply := none } = .next t) ∨
      (∃ n rest, s.pending = .observe n :: rest ∧ t = { s with pending := rest, reply := some (s.observe n) }) ∨
      (∃ n j rest, s.pending = .observeLimb n j :: rest ∧
        t = { s with pending := rest, reply := some (s.observeLimb n j) }) ∨
      (∃ rest, s.pending = .reset :: rest ∧ t = resetBlock { s with pending := rest, reply := none }) := by
  unfold step nextTransaction at h
  cases hp : s.pending with
  | nil => rw [hp] at h; exact .inl ⟨rfl, (Host.Outcome.next.inj h).symm⟩
  | cons a rest =>
    rw [hp] at h
    cases a with
    | issue w => exact .inr (.inl ⟨w, rest, rfl, h⟩)
    | observe n => exact .inr (.inr (.inl ⟨n, rest, rfl, (Host.Outcome.next.inj h).symm⟩))
    | observeLimb n j => exact .inr (.inr (.inr (.inl ⟨n, j, rest, rfl, (Host.Outcome.next.inj h).symm⟩)))
    | reset => exact .inr (.inr (.inr (.inr ⟨rest, rfl, (Host.Outcome.next.inj h).symm⟩)))

end Sys2Proof.Machine
end

