-- ==== Sys2Proof/Laws/PerInstr.lean ====
section
/-! SUPPORT. Statements about every command as syntax, one lemma per constructor of Instr. -/

namespace Sys2Proof.Laws.EncodeLegal

open Sys2Proof Sys2Proof.Machine

/-- The word of a command is legal, and it is its own row of R86 that accepts it. -/
def Statement (i : Instr) : Prop := ∃ r ∈ opcodeRows, r.mnemonic = mnemonic i ∧ r.accepts (encode i) = true

/-- The part of a format R word that a mask keeps, field by field. -/
theorem encodeR_and (op op' : BitVec 8) (a a' b b' c c' d d' e e' : BitVec 3) (z z' : BitVec 9) :
    (op ++ a ++ b ++ c ++ d ++ e ++ z) &&& (op' ++ a' ++ b' ++ c' ++ d' ++ e' ++ z') =
      (op &&& op') ++ (a &&& a') ++ (b &&& b') ++ (c &&& c') ++ (d &&& d') ++ (e &&& e') ++ (z &&& z') := by
  simp only [BitVec.and_append]

/-- The part of a format I word that a mask keeps, field by field. -/
theorem encodeI_and (op op' : BitVec 8) (a a' : BitVec 3) (z z' : BitVec 5) (i i' : BitVec 16) :
    (op ++ a ++ z ++ i) &&& (op' ++ a' ++ z' ++ i') =
      (op &&& op') ++ (a &&& a') ++ (z &&& z') ++ (i &&& i') := by
  simp only [BitVec.and_append]

theorem ldi (xd : XReg) (imm16 : BitVec 16) : Statement (.ldi xd imm16) := by
  refine ⟨⟨"LDI", 0x10000000#32, 0xFF1F0000#32⟩, by decide, rfl, ?_⟩
  have hm : (0xFF1F0000#32 : Word) = 0xFF#8 ++ 0#3 ++ 31#5 ++ 0#16 := by decide
  rw [Row.accepts, hm, encode, encodeI, encodeI_and, beq_iff_eq]
  simp [fieldOf]

theorem ldih (xd : XReg) (imm16 : BitVec 16) : Statement (.ldih xd imm16) := by
  refine ⟨⟨"LDIH", 0x11000000#32, 0xFF1F0000#32⟩, by decide, rfl, ?_⟩
  have hm : (0xFF1F0000#32 : Word) = 0xFF#8 ++ 0#3 ++ 31#5 ++ 0#16 := by decide
  rw [Row.accepts, hm, encode, encodeI, encodeI_and, beq_iff_eq]
  simp [fieldOf]

theorem vset (vd : VReg) (xs : XReg) : Statement (.vset vd xs) := by
  refine ⟨⟨"VSET", 0x12000000#32, 0xFFE38FFF#32⟩, by decide, rfl, ?_⟩
  have hm : (0xFFE38FFF#32 : Word) = 0xFF#8 ++ 7#3 ++ 0#3 ++ 7#3 ++ 0#3 ++ 7#3 ++ 511#9 := by decide
  rw [Row.accepts, hm, encode, encodeR, encodeR_and, beq_iff_eq]
  simp [fieldOf]

theorem vset64 (vd : VReg) (xs : XReg) (xt : XReg) : Statement (.vset64 vd xs xt) := by
  refine ⟨⟨"VSET64", 0x13000000#32, 0xFFE00FFF#32⟩, by decide, rfl, ?_⟩
  have hm : (0xFFE00FFF#32 : Word) = 0xFF#8 ++ 7#3 ++ 0#3 ++ 0#3 ++ 0#3 ++ 7#3 ++ 511#9 := by decide
  rw [Row.accepts, hm, encode, encodeR, encodeR_and, beq_iff_eq]
  simp [fieldOf]

theorem vmov (vd : VReg) (vs : VReg) : Statement (.vmov vd vs) := by
  refine ⟨⟨"VMOV", 0x14000000#32, 0xFFFF81FF#32⟩, by decide, rfl, ?_⟩
  have hm : (0xFFFF81FF#32 : Word) = 0xFF#8 ++ 7#3 ++ 7#3 ++ 7#3 ++ 0#3 ++ 0#3 ++ 511#9 := by decide
  rw [Row.accepts, hm, encode, encodeR, encodeR_and, beq_iff_eq]
  simp [fieldOf]

theorem vlen (xd : XReg) (vs : VReg) : Statement (.vlen xd vs) := by
  refine ⟨⟨"VLEN", 0x15000000#32, 0xFF1FF1FF#32⟩, by decide, rfl, ?_⟩
  have hm : (0xFF1FF1FF#32 : Word) = 0xFF#8 ++ 0#3 ++ 7#3 ++ 7#3 ++ 7#3 ++ 0#3 ++ 511#9 := by decide
  rw [Row.accepts, hm, encode, encodeR, encodeR_and, beq_iff_eq]
  simp [fieldOf]

theorem vgetl (xd : XReg) (vs : VReg) (xs : XReg) : Statement (.vgetl xd vs xs) := by
  refine ⟨⟨"VGETL", 0x16000000#32, 0xFF03F1FF#32⟩, by decide, rfl, ?_⟩
  have hm : (0xFF03F1FF#32 : Word) = 0xFF#8 ++ 0#3 ++ 0#3 ++ 7#3 ++ 7#3 ++ 0#3 ++ 511#9 := by decide
  rw [Row.accepts, hm, encode, encodeR, encodeR_and, beq_iff_eq]
  simp [fieldOf]

theorem vputl (vd : VReg) (xs : XReg) (xt : XReg) : Statement (.vputl vd xs xt) := by
  refine ⟨⟨"VPUTL", 0x17000000#32, 0xFFE00FFF#32⟩, by decide, rfl, ?_⟩
  have hm : (0xFFE00FFF#32 : Word) = 0xFF#8 ++ 7#3 ++ 0#3 ++ 0#3 ++ 0#3 ++ 7#3 ++ 511#9 := by decide
  rw [Row.accepts, hm, encode, encodeR, encodeR_and, beq_iff_eq]
  simp [fieldOf]

theorem mfov (xd : XReg) : Statement (.mfov xd) := by
  refine ⟨⟨"MFOV", 0x18000000#32, 0xFF1FFFFF#32⟩, by decide, rfl, ?_⟩
  have hm : (0xFF1FFFFF#32 : Word) = 0xFF#8 ++ 0#3 ++ 7#3 ++ 7#3 ++ 7#3 ++ 7#3 ++ 511#9 := by decide
  rw [Row.accepts, hm, encode, encodeR, encodeR_and, beq_iff_eq]
  simp [fieldOf]

theorem addl (xd : XReg) (xs : XReg) : Statement (.addl xd xs) := by
  refine ⟨⟨"ADDL", 0x20000000#32, 0xFF03FFFF#32⟩, by decide, rfl, ?_⟩
  have hm : (0xFF03FFFF#32 : Word) = 0xFF#8 ++ 0#3 ++ 0#3 ++ 7#3 ++ 7#3 ++ 7#3 ++ 511#9 := by decide
  rw [Row.accepts, hm, encode, encodeR, encodeR_and, beq_iff_eq]
  simp [fieldOf]

theorem adcl (xd : XReg) (xs : XReg) : Statement (.adcl xd xs) := by
  refine ⟨⟨"ADCL", 0x21000000#32, 0xFF03FFFF#32⟩, by decide, rfl, ?_⟩
  have hm : (0xFF03FFFF#32 : Word) = 0xFF#8 ++ 0#3 ++ 0#3 ++ 7#3 ++ 7#3 ++ 7#3 ++ 511#9 := by decide
  rw [Row.accepts, hm, encode, encodeR, encodeR_and, beq_iff_eq]
  simp [fieldOf]

theorem vadd (vd : VReg) (vs : VReg) : Statement (.vadd vd vs) := by
  refine ⟨⟨"VADD", 0x22000000#32, 0xFFFF81FF#32⟩, by decide, rfl, ?_⟩
  have hm : (0xFFFF81FF#32 : Word) = 0xFF#8 ++ 7#3 ++ 7#3 ++ 7#3 ++ 0#3 ++ 0#3 ++ 511#9 := by decide
  rw [Row.accepts, hm, encode, encodeR, encodeR_and, beq_iff_eq]
  simp [fieldOf]

theorem vadds (vd : VReg) (xs : XReg) : Statement (.vadds vd xs) := by
  refine ⟨⟨"VADDS", 0x23000000#32, 0xFFE38FFF#32⟩, by decide, rfl, ?_⟩
  have hm : (0xFFE38FFF#32 : Word) = 0xFF#8 ++ 7#3 ++ 0#3 ++ 7#3 ++ 0#3 ++ 7#3 ++ 511#9 := by decide
  rw [Row.accepts, hm, encode, encodeR, encodeR_and, beq_iff_eq]
  simp [fieldOf]

theorem vsub (vd : VReg) (vs : VReg) : Statement (.vsub vd vs) := by
  refine ⟨⟨"VSUB", 0x24000000#32, 0xFFFF81FF#32⟩, by decide, rfl, ?_⟩
  have hm : (0xFFFF81FF#32 : Word) = 0xFF#8 ++ 7#3 ++ 7#3 ++ 7#3 ++ 0#3 ++ 0#3 ++ 511#9 := by decide
  rw [Row.accepts, hm, encode, encodeR, encodeR_and, beq_iff_eq]
  simp [fieldOf]

theorem mull (xd : XReg) (xs : XReg) : Statement (.mull xd xs) := by
  refine ⟨⟨"MULL", 0x30000000#32, 0xFF03FFFF#32⟩, by decide, rfl, ?_⟩
  have hm : (0xFF03FFFF#32 : Word) = 0xFF#8 ++ 0#3 ++ 0#3 ++ 7#3 ++ 7#3 ++ 7#3 ++ 511#9 := by decide
  rw [Row.accepts, hm, encode, encodeR, encodeR_and, beq_iff_eq]
  simp [fieldOf]

theorem vmul (vd : VReg) (vs : VReg) : Statement (.vmul vd vs) := by
  refine ⟨⟨"VMUL", 0x31000000#32, 0xFFFF81FF#32⟩, by decide, rfl, ?_⟩
  have hm : (0xFFFF81FF#32 : Word) = 0xFF#8 ++ 7#3 ++ 7#3 ++ 7#3 ++ 0#3 ++ 0#3 ++ 511#9 := by decide
  rw [Row.accepts, hm, encode, encodeR, encodeR_and, beq_iff_eq]
  simp [fieldOf]

theorem vmuls (vd : VReg) (xs : XReg) : Statement (.vmuls vd xs) := by
  refine ⟨⟨"VMULS", 0x32000000#32, 0xFFE38FFF#32⟩, by decide, rfl, ?_⟩
  have hm : (0xFFE38FFF#32 : Word) = 0xFF#8 ++ 7#3 ++ 0#3 ++ 7#3 ++ 0#3 ++ 7#3 ++ 511#9 := by decide
  rw [Row.accepts, hm, encode, encodeR, encodeR_and, beq_iff_eq]
  simp [fieldOf]

theorem shll (xd : XReg) (xs : XReg) : Statement (.shll xd xs) := by
  refine ⟨⟨"SHLL", 0x40000000#32, 0xFF03FFFF#32⟩, by decide, rfl, ?_⟩
  have hm : (0xFF03FFFF#32 : Word) = 0xFF#8 ++ 0#3 ++ 0#3 ++ 7#3 ++ 7#3 ++ 7#3 ++ 511#9 := by decide
  rw [Row.accepts, hm, encode, encodeR, encodeR_and, beq_iff_eq]
  simp [fieldOf]

theorem shllo (xd : XReg) (xs : XReg) : Statement (.shllo xd xs) := by
  refine ⟨⟨"SHLLO", 0x41000000#32, 0xFF03FFFF#32⟩, by decide, rfl, ?_⟩
  have hm : (0xFF03FFFF#32 : Word) = 0xFF#8 ++ 0#3 ++ 0#3 ++ 7#3 ++ 7#3 ++ 7#3 ++ 511#9 := by decide
  rw [Row.accepts, hm, encode, encodeR, encodeR_and, beq_iff_eq]
  simp [fieldOf]

theorem shrl (xd : XReg) (xs : XReg) : Statement (.shrl xd xs) := by
  refine ⟨⟨"SHRL", 0x42000000#32, 0xFF03FFFF#32⟩, by decide, rfl, ?_⟩
  have hm : (0xFF03FFFF#32 : Word) = 0xFF#8 ++ 0#3 ++ 0#3 ++ 7#3 ++ 7#3 ++ 7#3 ++ 511#9 := by decide
  rw [Row.accepts, hm, encode, encodeR, encodeR_and, beq_iff_eq]
  simp [fieldOf]

theorem shrnl (xd : XReg) (xs : XReg) (xt : XReg) : Statement (.shrnl xd xs xt) := by
  refine ⟨⟨"SHRNL", 0x43000000#32, 0xFF007FFF#32⟩, by decide, rfl, ?_⟩
  have hm : (0xFF007FFF#32 : Word) = 0xFF#8 ++ 0#3 ++ 0#3 ++ 0#3 ++ 7#3 ++ 7#3 ++ 511#9 := by decide
  rw [Row.accepts, hm, encode, encodeR, encodeR_and, beq_iff_eq]
  simp [fieldOf]

theorem vshl (vd : VReg) (xs : XReg) : Statement (.vshl vd xs) := by
  refine ⟨⟨"VSHL", 0x44000000#32, 0xFFE38FFF#32⟩, by decide, rfl, ?_⟩
  have hm : (0xFFE38FFF#32 : Word) = 0xFF#8 ++ 7#3 ++ 0#3 ++ 7#3 ++ 0#3 ++ 7#3 ++ 511#9 := by decide
  rw [Row.accepts, hm, encode, encodeR, encodeR_and, beq_iff_eq]
  simp [fieldOf]

theorem vshr (vd : VReg) (xs : XReg) : Statement (.vshr vd xs) := by
  refine ⟨⟨"VSHR", 0x45000000#32, 0xFFE38FFF#32⟩, by decide, rfl, ?_⟩
  have hm : (0xFFE38FFF#32 : Word) = 0xFF#8 ++ 7#3 ++ 0#3 ++ 7#3 ++ 0#3 ++ 7#3 ++ 511#9 := by decide
  rw [Row.accepts, hm, encode, encodeR, encodeR_and, beq_iff_eq]
  simp [fieldOf]

theorem vinv (vd : VReg) (xs : XReg) : Statement (.vinv vd xs) := by
  refine ⟨⟨"VINV", 0x46000000#32, 0xFFE38FFF#32⟩, by decide, rfl, ?_⟩
  have hm : (0xFFE38FFF#32 : Word) = 0xFF#8 ++ 7#3 ++ 0#3 ++ 7#3 ++ 0#3 ++ 7#3 ++ 511#9 := by decide
  rw [Row.accepts, hm, encode, encodeR, encodeR_and, beq_iff_eq]
  simp [fieldOf]

theorem vsetb (vd : VReg) (xs : XReg) : Statement (.vsetb vd xs) := by
  refine ⟨⟨"VSETB", 0x47000000#32, 0xFFE38FFF#32⟩, by decide, rfl, ?_⟩
  have hm : (0xFFE38FFF#32 : Word) = 0xFF#8 ++ 7#3 ++ 0#3 ++ 7#3 ++ 0#3 ++ 7#3 ++ 511#9 := by decide
  rw [Row.accepts, hm, encode, encodeR, encodeR_and, beq_iff_eq]
  simp [fieldOf]

theorem vclrb (vd : VReg) (xs : XReg) : Statement (.vclrb vd xs) := by
  refine ⟨⟨"VCLRB", 0x48000000#32, 0xFFE38FFF#32⟩, by decide, rfl, ?_⟩
  have hm : (0xFFE38FFF#32 : Word) = 0xFF#8 ++ 7#3 ++ 0#3 ++ 7#3 ++ 0#3 ++ 7#3 ++ 511#9 := by decide
  rw [Row.accepts, hm, encode, encodeR, encodeR_and, beq_iff_eq]
  simp [fieldOf]

theorem vtstb (vs : VReg) (xs : XReg) : Statement (.vtstb vs xs) := by
  refine ⟨⟨"VTSTB", 0x49000000#32, 0xFFE3F1FF#32⟩, by decide, rfl, ?_⟩
  have hm : (0xFFE3F1FF#32 : Word) = 0xFF#8 ++ 7#3 ++ 0#3 ++ 7#3 ++ 7#3 ++ 0#3 ++ 511#9 := by decide
  rw [Row.accepts, hm, encode, encodeR, encodeR_and, beq_iff_eq]
  simp [fieldOf]

theorem ctzl (xd : XReg) (xs : XReg) : Statement (.ctzl xd xs) := by
  refine ⟨⟨"CTZL", 0x50000000#32, 0xFF03FFFF#32⟩, by decide, rfl, ?_⟩
  have hm : (0xFF03FFFF#32 : Word) = 0xFF#8 ++ 0#3 ++ 0#3 ++ 7#3 ++ 7#3 ++ 7#3 ++ 511#9 := by decide
  rw [Row.accepts, hm, encode, encodeR, encodeR_and, beq_iff_eq]
  simp [fieldOf]

theorem vlal (xd : XReg) (vd : VReg) : Statement (.vlal xd vd) := by
  refine ⟨⟨"VLAL", 0x51000000#32, 0xFF1F8FFF#32⟩, by decide, rfl, ?_⟩
  have hm : (0xFF1F8FFF#32 : Word) = 0xFF#8 ++ 0#3 ++ 7#3 ++ 7#3 ++ 0#3 ++ 7#3 ++ 511#9 := by decide
  rw [Row.accepts, hm, encode, encodeR, encodeR_and, beq_iff_eq]
  simp [fieldOf]

theorem vral (xd : XReg) (vd : VReg) : Statement (.vral xd vd) := by
  refine ⟨⟨"VRAL", 0x52000000#32, 0xFF1F8FFF#32⟩, by decide, rfl, ?_⟩
  have hm : (0xFF1F8FFF#32 : Word) = 0xFF#8 ++ 0#3 ++ 7#3 ++ 7#3 ++ 0#3 ++ 7#3 ++ 511#9 := by decide
  rw [Row.accepts, hm, encode, encodeR, encodeR_and, beq_iff_eq]
  simp [fieldOf]

theorem cmpl (xs : XReg) (xt : XReg) : Statement (.cmpl xs xt) := by
  refine ⟨⟨"CMPL", 0x60000000#32, 0xFFE07FFF#32⟩, by decide, rfl, ?_⟩
  have hm : (0xFFE07FFF#32 : Word) = 0xFF#8 ++ 7#3 ++ 0#3 ++ 0#3 ++ 7#3 ++ 7#3 ++ 511#9 := by decide
  rw [Row.accepts, hm, encode, encodeR, encodeR_and, beq_iff_eq]
  simp [fieldOf]

theorem vcmp (vd : VReg) (vs : VReg) : Statement (.vcmp vd vs) := by
  refine ⟨⟨"VCMP", 0x61000000#32, 0xFFFF81FF#32⟩, by decide, rfl, ?_⟩
  have hm : (0xFFFF81FF#32 : Word) = 0xFF#8 ++ 7#3 ++ 7#3 ++ 7#3 ++ 0#3 ++ 0#3 ++ 511#9 := by decide
  rw [Row.accepts, hm, encode, encodeR, encodeR_and, beq_iff_eq]
  simp [fieldOf]

theorem log2l (xd : XReg) (xs : XReg) : Statement (.log2l xd xs) := by
  refine ⟨⟨"LOG2L", 0x62000000#32, 0xFF03FFFF#32⟩, by decide, rfl, ?_⟩
  have hm : (0xFF03FFFF#32 : Word) = 0xFF#8 ++ 0#3 ++ 0#3 ++ 7#3 ++ 7#3 ++ 7#3 ++ 511#9 := by decide
  rw [Row.accepts, hm, encode, encodeR, encodeR_and, beq_iff_eq]
  simp [fieldOf]

theorem vlog2 (xd : XReg) (vs : VReg) : Statement (.vlog2 xd vs) := by
  refine ⟨⟨"VLOG2", 0x63000000#32, 0xFF1FF1FF#32⟩, by decide, rfl, ?_⟩
  have hm : (0xFF1FF1FF#32 : Word) = 0xFF#8 ++ 0#3 ++ 7#3 ++ 7#3 ++ 7#3 ++ 0#3 ++ 511#9 := by decide
  rw [Row.accepts, hm, encode, encodeR, encodeR_and, beq_iff_eq]
  simp [fieldOf]

theorem vdiv (xd : XReg) (vd : VReg) (vs : VReg) (xs : XReg) : Statement (.vdiv xd vd vs xs) := by
  refine ⟨⟨"VDIV", 0x70000000#32, 0xFF0381FF#32⟩, by decide, rfl, ?_⟩
  have hm : (0xFF0381FF#32 : Word) = 0xFF#8 ++ 0#3 ++ 0#3 ++ 7#3 ++ 0#3 ++ 0#3 ++ 511#9 := by decide
  rw [Row.accepts, hm, encode, encodeR, encodeR_and, beq_iff_eq]
  simp [fieldOf]

end Sys2Proof.Laws.EncodeLegal
end

