-- ==== Sys2Proof/Laws/Units.lean ====
section
/-! SUPPORT. What each unit's function computes, in value terms: one lemma per function, from the limb level up. Later
proofs cite these and unfold no loop. -/

namespace Sys2Proof.Machine

/-! ### the adder -/

/-- "The identity `a + b + cin = cout * 2^32 + sum` holds for all inputs" (R130). -/
theorem limbAdd_spec (a b : Limb) (c : Bool) :
    (limbAdd a b c).1.toNat + 2 ^ 32 * (limbAdd a b c).2.toNat = a.toNat + b.toNat + c.toNat := by
  have ha := a.isLt
  have hb := b.isLt
  have hc : c.toNat ≤ 1 := Bool.toNat_le c
  have hacc : (addAcc a b c).toNat = a.toNat + b.toNat + c.toNat := by
    simp only [addAcc, BitVec.toNat_add, BitVec.toNat_setWidth, BitVec.toNat_ofBool]
    omega
  have h1 : (limbAdd a b c).1.toNat = (a.toNat + b.toNat + c.toNat) % 2 ^ 32 := by
    simp [limbAdd, BitVec.extractLsb'_toNat, hacc]
  have h2 : (limbAdd a b c).2 = decide ((a.toNat + b.toNat + c.toNat) / 2 ^ 32 % 2 = 1) := by
    simp only [limbAdd, BitVec.getLsbD, hacc, Nat.testBit_eq_decide_div_mod_eq]
  rw [h1, h2]
  by_cases h : (a.toNat + b.toNat + c.toNat) / 2 ^ 32 % 2 = 1
  · simp only [h, decide_true, Bool.toNat_true]; omega
  · simp only [h, decide_false, Bool.toNat_false]; omega

/-- The adder's loop over enough limbs gives the exact sum with the carry in. -/
theorem val_chainAddLoop (n : Nat) (A B : List Limb) (c : Bool) (hA : A.length ≤ n) (hB : B.length ≤ n) :
    val (chainAddLoop n A B c) = val A + val B + c.toNat := by
  induction n generalizing A B c with
  | zero =>
    have hA' : A = [] := List.length_eq_zero_iff.mp (by omega)
    have hB' : B = [] := List.length_eq_zero_iff.mp (by omega)
    subst hA' hB'
    cases c <;> simp [chainAddLoop]
  | succ n ih =>
    have key : ∀ L : List Limb, val L = (L.headD 0#32).toNat + 2 ^ 32 * val L.tail := by
      intro L; cases L <;> simp [val_cons]
    rw [chainAddLoop, val_cons, ih _ _ _ (by rw [List.length_tail]; omega) (by rw [List.length_tail]; omega)]
    have h := limbAdd_spec (A.headD 0#32) (B.headD 0#32) c
    rw [key A, key B]
    omega

/-- `val(chain_add(A, B)) = val(A) + val(B)` exactly (R133). -/
theorem val_chainAdd (A B : List Limb) : val (chainAdd A B) = val A + val B := by
  rw [chainAdd, val_reduce, val_chainAddLoop _ _ _ _ (le_max_left _ _) (le_max_right _ _)]
  simp

/-- The adder's result is the reduced sequence of the sum. -/
theorem chainAdd_eq (A B : List Limb) : chainAdd A B = limbs (val A + val B) := by
  rw [← val_chainAdd]
  exact (limbs_val (reducedForm_reduce _)).symm

/-! ### the shifter -/

/-- One step of the left shift (R165): the overflow handed in is below `2^r`, so the OR is a sum. -/
theorem shlStep_spec (l : Limb) (r : Nat) (ov : Limb) (hr : r < 32) (hov : ov.toNat < 2 ^ r) :
    (shlStep l r ov).1.toNat + 2 ^ 32 * (shlStep l r ov).2.toNat = l.toNat * 2 ^ r + ov.toNat ∧
      (shlStep l r ov).2.toNat < 2 ^ r := by
  have hl := l.isLt
  have hp : 2 ^ 32 * 2 ^ r ≤ 2 ^ 63 := by
    rw [← pow_add]; exact Nat.pow_le_pow_right (by norm_num) (by omega)
  have hlt : l.toNat * 2 ^ r < 2 ^ 32 * 2 ^ r := Nat.mul_lt_mul_of_pos_right hl (by positivity)
  have hacc : (shlAcc l r ov).toNat = l.toNat * 2 ^ r + ov.toNat := by
    have h1 : (l.setWidth 64 <<< r).toNat = 2 ^ r * l.toNat := by
      rw [BitVec.toNat_shiftLeft, BitVec.toNat_setWidth, Nat.shiftLeft_eq, Nat.mod_eq_of_lt (by omega : l.toNat < 2 ^ 64),
        Nat.mod_eq_of_lt (by omega), Nat.mul_comm]
    have h2 : (ov.setWidth 64).toNat = ov.toNat := by
      have := ov.isLt
      rw [BitVec.toNat_setWidth, Nat.mod_eq_of_lt (by omega)]
    rw [shlAcc, BitVec.toNat_or, h1, h2, ← Nat.two_pow_add_eq_or_of_lt hov, Nat.mul_comm]
  have hbound : l.toNat * 2 ^ r + ov.toNat < 2 ^ 32 * 2 ^ r := by
    have : l.toNat * 2 ^ r + 2 ^ r ≤ 2 ^ 32 * 2 ^ r := by
      have := Nat.mul_le_mul_right (2 ^ r) (by omega : l.toNat + 1 ≤ 2 ^ 32)
      linarith
    omega
  have h1 : (shlStep l r ov).1.toNat = (l.toNat * 2 ^ r + ov.toNat) % 2 ^ 32 := by
    simp [shlStep, BitVec.extractLsb'_toNat, hacc]
  have h2 : (shlStep l r ov).2.toNat = (l.toNat * 2 ^ r + ov.toNat) / 2 ^ 32 := by
    simp only [shlStep, BitVec.extractLsb'_toNat, hacc, Nat.shiftRight_eq_div_pow]
    apply Nat.mod_eq_of_lt
    apply Nat.div_lt_of_lt_mul
    omega
  have h3 : (l.toNat * 2 ^ r + ov.toNat) / 2 ^ 32 < 2 ^ r := Nat.div_lt_of_lt_mul hbound
  rw [h1, h2]
  omega

/-- The left shift's loop multiplies by `2^r` and adds the overflow handed in. -/
theorem val_shlLoop (r : Nat) (L : List Limb) (ov : Limb) (hr : r < 32) (hov : ov.toNat < 2 ^ r) :
    val (shlLoop r L ov) = val L * 2 ^ r + ov.toNat := by
  induction L generalizing ov with
  | nil =>
    rw [shlLoop]
    split
    · rename_i h; simp [h]
    · simp
  | cons l L ih =>
    obtain ⟨h1, h2⟩ := shlStep_spec l r ov hr hov
    rw [shlLoop, val_cons, val_cons, ih _ h2]
    linear_combination h1

/-- `val(shl(L, n)) = val(L) * 2^n` (R170). -/
theorem val_shl (L : List Limb) (n : Nat) : val (shl L n) = val L * 2 ^ n := by
  rw [shl, val_reduce, val_shlLoop _ _ _ (Nat.mod_lt _ (by norm_num)) (by simp), val_append]
  have h : 2 ^ n = 2 ^ (32 * (n / 32)) * 2 ^ (n % 32) := by rw [← pow_add]; congr 1; omega
  rw [h]
  simp
  ring

/-- The left shift's result is the reduced sequence of the product. -/
theorem shl_eq (L : List Limb) (n : Nat) : shl L n = limbs (val L * 2 ^ n) := by
  rw [← val_shl]
  exact (limbs_val (reducedForm_reduce _)).symm

theorem toNat_lowMask (r : Nat) (hr : r ≤ 32) : (lowMask r).toNat = 2 ^ r - 1 := by
  have h : 2 ^ r ≤ 2 ^ 32 := Nat.pow_le_pow_right (by norm_num) hr
  rw [lowMask, BitVec.toNat_ofNat, Nat.mod_eq_of_lt]
  have : 0 < 2 ^ r := by positivity
  omega

/-- One step of the right shift (R165): the high part of the limb and, above it, the low `r` bits of the next. -/
theorem shrStep_spec (l next : Limb) (r : Nat) (hr : r < 32) :
    (shrStep l next r).toNat = l.toNat / 2 ^ r + next.toNat % 2 ^ r * 2 ^ (32 - r) := by
  have hl := l.isLt
  have hsplit : 2 ^ 32 = 2 ^ r * 2 ^ (32 - r) := by rw [← pow_add]; congr 1; omega
  have h1 : (l >>> r).toNat = l.toNat / 2 ^ r := by
    rw [BitVec.toNat_ushiftRight, Nat.shiftRight_eq_div_pow]
  have hm : next.toNat % 2 ^ r < 2 ^ r := Nat.mod_lt _ (by positivity)
  have h2 : ((next &&& lowMask r) <<< (32 - r)).toNat = 2 ^ (32 - r) * (next.toNat % 2 ^ r) := by
    rw [BitVec.toNat_shiftLeft, BitVec.toNat_and, toNat_lowMask r (by omega), Nat.and_two_pow_sub_one_eq_mod,
      Nat.shiftLeft_eq, Nat.mod_eq_of_lt, Nat.mul_comm]
    rw [hsplit]
    exact Nat.mul_lt_mul_of_pos_right hm (by positivity)
  have h3 : l.toNat / 2 ^ r < 2 ^ (32 - r) := by
    apply Nat.div_lt_of_lt_mul
    rw [← hsplit]; exact hl
  rw [shrStep, BitVec.toNat_or, h1, h2, Nat.or_comm, ← Nat.two_pow_add_eq_or_of_lt h3]
  ring

/-- The right shift's loop divides by `2^r`. -/
theorem val_shrLoop (r : Nat) (L : List Limb) (hr : r < 32) : val (shrLoop r L) = val L / 2 ^ r := by
  have hsplit : 2 ^ 32 = 2 ^ r * 2 ^ (32 - r) := by rw [← pow_add]; congr 1; omega
  have hpos : 0 < 2 ^ r := by positivity
  induction L with
  | nil => simp [shrLoop]
  | cons l L ih =>
    cases L with
    | nil => simp [shrLoop, Nat.shiftRight_eq_div_pow]
    | cons m M =>
      rw [shrLoop, val_cons, ih, shrStep_spec _ _ _ hr, val_cons l]
      have hmod : m.toNat % 2 ^ r = val (m :: M) % 2 ^ r := by
        rw [val_cons, hsplit, Nat.mul_assoc, Nat.add_mul_mod_self_left]
      have hdm := Nat.div_add_mod (val (m :: M)) (2 ^ r)
      rw [hmod]
      have h4 : l.toNat + 2 ^ 32 * val (m :: M) = l.toNat + 2 ^ r * (2 ^ (32 - r) * val (m :: M)) := by
        rw [hsplit]; ring
      rw [h4, Nat.add_mul_div_left _ _ hpos]
      generalize val (m :: M) / 2 ^ r = q at *
      generalize val (m :: M) % 2 ^ r = t at *
      rw [← hdm, hsplit]
      ring

theorem val_drop (L : List Limb) (q : Nat) : val (L.drop q) = val L / 2 ^ (32 * q) := by
  induction q generalizing L with
  | zero => simp
  | succ q ih =>
    cases L with
    | nil => simp
    | cons l L =>
      have h : 2 ^ (32 * (q + 1)) = 2 ^ 32 * 2 ^ (32 * q) := by rw [← pow_add]; congr 1; omega
      have hl := l.isLt
      have hq : (l.toNat + 2 ^ 32 * val L) / 2 ^ 32 = val L := by omega
      rw [List.drop_succ_cons, ih, val_cons, h, ← Nat.div_div_eq_div_mul, hq]

/-- `val(shr(L, n)) = val(L) div 2^n` (R171). -/
theorem val_shr (L : List Limb) (n : Nat) : val (shr L n) = val L / 2 ^ n := by
  have h : 2 ^ n = 2 ^ (32 * (n / 32)) * 2 ^ (n % 32) := by rw [← pow_add]; congr 1; omega
  rw [shr]
  split
  · rename_i hq
    symm
    apply Nat.div_eq_of_lt
    refine lt_of_lt_of_le (val_lt L) (Nat.pow_le_pow_right (by norm_num) ?_)
    omega
  · rw [val_reduce, val_shrLoop _ _ (Nat.mod_lt _ (by norm_num)), val_drop, h, Nat.div_div_eq_div_mul]

/-- The right shift's result is the reduced sequence of the quotient. -/
theorem shr_eq (L : List Limb) (n : Nat) : shr L n = limbs (val L / 2 ^ n) := by
  rw [← val_shr]
  refine (limbs_val ?_).symm
  rw [shr]
  split <;> simp

/-! ### inversion and single bits -/

@[simp] theorem val_extendTo (L : List Limb) (n : Nat) : val (extendTo L n) = val L := by
  simp [extendTo, val_append]

theorem length_extendTo (L : List Limb) (n : Nat) : (extendTo L n).length = max L.length n := by
  simp [extendTo]; omega

/-- The inversion's loop complements the low `32 * q + r` bits. -/
theorem val_invLoop (r q : Nat) (L : List Limb) (hr : r < 32) (hq : q + (if r = 0 then 0 else 1) ≤ L.length) :
    val (invLoop r q L) = val L ^^^ (2 ^ (32 * q + r) - 1) := by
  have split1 : ∀ (l : Limb) (L : List Limb) (i : Nat),
      (val (l :: L)).testBit i = if i < 32 then l.getLsbD i else (val L).testBit (i - 32) := by
    intro l L i
    rw [val_cons, Nat.add_comm, Nat.testBit_two_pow_mul_add _ l.isLt]
    rfl
  induction q generalizing L with
  | zero =>
    cases L with
    | nil =>
      have : r = 0 := by by_contra h; simp [h] at hq
      subst this
      simp [invLoop]
    | cons l L =>
      apply Nat.eq_of_testBit_eq
      intro i
      rw [invLoop, Nat.testBit_xor, split1, split1, Nat.testBit_two_pow_sub_one]
      by_cases h : i < 32
      · simp only [h, if_true, BitVec.getLsbD_xor]
        congr 1
        rw [BitVec.getLsbD, toNat_lowMask r (by omega), Nat.testBit_two_pow_sub_one]
        simp
      · have h2 : ¬ i < 32 * 0 + r := by omega
        simp only [h, h2, if_false, decide_false, Bool.xor_false]
  | succ q ih =>
    cases L with
    | nil => simp at hq
    | cons l L =>
      have ih' := ih L (by simp only [List.length_cons] at hq; omega)
      apply Nat.eq_of_testBit_eq
      intro i
      rw [invLoop, Nat.testBit_xor, split1, split1, Nat.testBit_two_pow_sub_one]
      by_cases h : i < 32
      · have h2 : i < 32 * (q + 1) + r := by omega
        simp only [h, if_true, BitVec.getLsbD_xor, h2, decide_true]
        congr 1
        have h3 : (0xFFFFFFFF#32) = BitVec.allOnes 32 := by decide
        rw [h3, BitVec.getLsbD_allOnes, decide_eq_true h]
      · simp only [h, if_false, ih', Nat.testBit_xor, Nat.testBit_two_pow_sub_one]
        congr 1
        by_cases h2 : i < 32 * (q + 1) + r
        · have : i - 32 < 32 * q + r := by omega
          simp [h2, this]
        · have : ¬ i - 32 < 32 * q + r := by omega
          simp [h2, this]

/-- `inv` complements the low `n` bits of the value (R172). -/
theorem val_inv (L : List Limb) (n : Nat) : val (inv L n) = val L ^^^ (2 ^ n - 1) := by
  rw [inv, val_reduce, val_invLoop _ _ _ (Nat.mod_lt _ (by norm_num)), val_extendTo]
  · congr 3; omega
  · rw [length_extendTo]; exact le_max_right _ _

/-- The inversion's result is the reduced sequence of the inverted value. -/
theorem inv_eq (L : List Limb) (n : Nat) : inv L n = limbs (val L ^^^ (2 ^ n - 1)) := by
  rw [← val_inv]
  exact (limbs_val (reducedForm_reduce _)).symm

/-- Setting a bit of one limb of a sequence ors the bit into the value. -/
theorem val_modify_or (L : List Limb) (q b : Nat) (hq : q < L.length) (hb : b < 32) :
    val (L.modify q fun l => l ||| (1#32 <<< b)) = val L ||| 2 ^ (32 * q + b) := by
  have split1 : ∀ (l : Limb) (L : List Limb) (i : Nat),
      (val (l :: L)).testBit i = if i < 32 then l.getLsbD i else (val L).testBit (i - 32) := by
    intro l L i
    rw [val_cons, Nat.add_comm, Nat.testBit_two_pow_mul_add _ l.isLt]
    rfl
  induction q generalizing L with
  | zero =>
    cases L with
    | nil => simp at hq
    | cons l L =>
      apply Nat.eq_of_testBit_eq
      intro i
      rw [List.modify_zero_cons, Nat.testBit_or, split1, split1, Nat.testBit_two_pow]
      by_cases h : i < 32
      · simp only [h, if_true, BitVec.getLsbD_or, BitVec.getLsbD_shiftLeft, BitVec.getLsbD_one]
        congr 1
        by_cases h2 : b = i
        · subst h2; simp
        · simp [h2]; omega
      · have : ¬ b = i := by omega
        simp [h, this]
  | succ q ih =>
    cases L with
    | nil => simp at hq
    | cons l L =>
      have ih' := ih L (by simpa using hq)
      apply Nat.eq_of_testBit_eq
      intro i
      rw [List.modify_succ_cons, Nat.testBit_or, split1, split1, Nat.testBit_two_pow, ih']
      by_cases h : i < 32
      · have : ¬ 32 * (q + 1) + b = i := by omega
        simp [h, this]
      · simp only [h, if_false, Nat.testBit_or, Nat.testBit_two_pow]
        congr 1
        by_cases h2 : 32 * (q + 1) + b = i
        · have : 32 * q + b = i - 32 := by omega
          simp [h2, this]
        · have : ¬ 32 * q + b = i - 32 := by omega
          simp [h2, this]

/-- `val(V[vd]) | 2^i` (R173). -/
theorem val_setBit (L : List Limb) (i : Nat) : val (setBit L i) = val L ||| 2 ^ i := by
  rw [setBit, val_modify_or _ _ _ _ (Nat.mod_lt _ (by norm_num)), val_extendTo]
  · congr 2; omega
  · rw [length_extendTo]; omega

theorem length_setBit (L : List Limb) (i : Nat) : (setBit L i).length = max L.length (i / 32 + 1) := by
  rw [setBit, List.length_modify, length_extendTo]

/-- Clearing a bit of a reduced sequence (R174): the value less `2^i` when the bit is 1. -/
theorem clearBit_eq {L : List Limb} (hr : reducedForm L = true) (i : Nat) :
    clearBit L i = limbs (if (val L).testBit i then val L - 2 ^ i else val L) := by
  rw [clearBit, seqBit_eq_testBit]
  split
  · rfl
  · exact (limbs_val hr).symm

/-! ### the order -/

theorem cmp32_eq (a b : Limb) : cmp32 a b = compare a.toNat b.toNat := rfl

/-- From the highest limb down, sequences of one length are ordered as their values (R212). -/
theorem cmpHighFirst_eq (A B : List Limb) (h : A.length = B.length) :
    cmpHighFirst A B = compare (val A.reverse) (val B.reverse) := by
  induction A generalizing B with
  | nil =>
    have : B = [] := List.length_eq_zero_iff.mp h.symm
    subst this
    simp [cmpHighFirst]
  | cons a A ih =>
    cases B with
    | nil => simp at h
    | cons b B =>
      have hl : A.length = B.length := by simpa using h
      have hA := val_lt A.reverse
      have hB := val_lt B.reverse
      rw [List.length_reverse] at hA hB
      rw [← hl] at hB
      rw [List.reverse_cons, List.reverse_cons, val_append, val_append, List.length_reverse, List.length_reverse, ← hl,
        val_single, val_single]
      rw [cmpHighFirst, cmp32_eq]
      rcases Nat.lt_trichotomy a.toNat b.toNat with hab | hab | hab
      · rw [compare_lt_iff_lt.mpr hab]
        symm
        rw [compare_lt_iff_lt]
        have := Nat.mul_le_mul_left (2 ^ (32 * A.length)) hab
        rw [Nat.succ_eq_add_one, Nat.mul_add] at this
        omega
      · rw [compare_eq_iff_eq.mpr hab]
        simp only
        rw [ih B hl, hab]
        rcases Nat.lt_trichotomy (val A.reverse) (val B.reverse) with h1 | h1 | h1
        · rw [compare_lt_iff_lt.mpr h1, compare_lt_iff_lt.mpr (by omega)]
        · rw [compare_eq_iff_eq.mpr h1, compare_eq_iff_eq.mpr (by omega)]
        · rw [compare_gt_iff_gt.mpr h1, compare_gt_iff_gt.mpr (by omega)]
      · rw [compare_gt_iff_gt.mpr hab]
        symm
        rw [compare_gt_iff_gt]
        have := Nat.mul_le_mul_left (2 ^ (32 * A.length)) hab
        rw [Nat.succ_eq_add_one, Nat.mul_add] at this
        omega

/-- A shorter reduced sequence has the smaller value (R212). -/
theorem val_lt_of_length_lt {A B : List Limb} (ha : reducedForm A = true) (hb : reducedForm B = true)
    (h : A.length < B.length) : val A < val B := by
  have h1 : A ≠ [] := ((reducedForm_iff A).mp ha).1
  have h2 : 0 < A.length := List.length_pos_iff.mpr h1
  have h3 := le_val_of_reducedForm hb (by omega)
  have h4 : 2 ^ (32 * A.length) ≤ 2 ^ (32 * (B.length - 1)) := Nat.pow_le_pow_right (by norm_num) (by omega)
  have := val_lt A
  omega

/-- "For reduced sequences this is the order of the values" (R212). -/
theorem cmp_eq {A B : List Limb} (ha : reducedForm A = true) (hb : reducedForm B = true) :
    cmp A B = compare (val A) (val B) := by
  rw [cmp]
  rcases Nat.lt_trichotomy A.length B.length with h | h | h
  · rw [compare_lt_iff_lt.mpr h, compare_lt_iff_lt.mpr (val_lt_of_length_lt ha hb h)]
  · rw [compare_eq_iff_eq.mpr h]
    simp only
    rw [cmpHighFirst_eq _ _ (by simpa using h), List.reverse_reverse, List.reverse_reverse]
  · rw [compare_gt_iff_gt.mpr h, compare_gt_iff_gt.mpr (val_lt_of_length_lt hb ha h)]

/-- `log2(L) = bitlen(val(L)) - 1` for a reduced sequence that is not zero (R214). -/
theorem seqLog2_eq {L : List Limb} (hr : reducedForm L = true) (hz : val L ≠ 0) : seqLog2 L = Nat.log2 (val L) := by
  have hne : L ≠ [] := ((reducedForm_iff L).mp hr).1
  have hsplit : L.dropLast ++ [L.getLast hne] = L := List.dropLast_append_getLast hne
  have hlast : L.getLastD 0#32 = L.getLast hne := by
    rw [List.getLastD_eq_getLast?, List.getLast?_eq_some_getLast hne]; rfl
  have hval : val L = val L.dropLast + 2 ^ (32 * (L.length - 1)) * (L.getLast hne).toNat := by
    conv_lhs => rw [← hsplit, val_append]
    simp
  have hlow := val_lt L.dropLast
  rw [List.length_dropLast] at hlow
  have htop : (L.getLast hne).toNat ≠ 0 := by
    intro h0
    by_cases h1 : L.length = 1
    · rw [h0, h1] at hval; rw [h1] at hlow; simp at hval hlow; omega
    · have := le_val_of_reducedForm hr h1
      rw [hval, h0] at this
      omega
  rw [seqLog2, hlast, topBit32]
  symm
  rw [Nat.log2_eq_iff hz]
  have h1 := Nat.log2_self_le htop
  have h2 := Nat.lt_log2_self (n := (L.getLast hne).toNat)
  generalize (L.getLast hne).toNat = t at *
  have hmul : (L.length - 1) * 32 = 32 * (L.length - 1) := Nat.mul_comm _ _
  constructor
  · rw [hmul, pow_add, hval]
    exact le_trans (Nat.mul_le_mul_left _ h1) (Nat.le_add_left _ _)
  · rw [hmul, add_assoc, pow_add, hval]
    have h3 := Nat.mul_le_mul_left (2 ^ (32 * (L.length - 1))) (Nat.succ_le_of_lt h2)
    rw [Nat.succ_eq_add_one, Nat.mul_add] at h3
    omega

/-! ### subtraction and multiplication -/

/-- Step 4 of the document's subtraction (R136): the inversion over the width of the larger operand, the addition and the
dropped bit give the difference. -/
theorem val_subLarger {big small : List Limb} (h : val small < val big) :
    subLarger big small = limbs (val big - val small) := by
  have hb : val big ≠ 0 := by omega
  have hk := lt_two_pow_bitlen (val big)
  have hk2 := two_pow_le_of_bitlen hb
  have hk3 := bitlen_pos hb
  have hs : val (inv small (bitlen (val big))) = 2 ^ bitlen (val big) - 1 - val small := by
    rw [val_inv]
    apply Nat.eq_of_testBit_eq
    intro i
    rw [Nat.testBit_xor, Nat.testBit_two_pow_sub_one,
      show 2 ^ bitlen (val big) - 1 - val small = 2 ^ bitlen (val big) - (val small + 1) by omega,
      Nat.testBit_two_pow_sub_succ (by omega)]
    by_cases hi : i < bitlen (val big)
    · simp [hi]
    · have : (val small).testBit i = false := by
        apply Nat.testBit_lt_two_pow
        exact lt_of_lt_of_le (by omega) (Nat.pow_le_pow_right (by norm_num) (by omega : bitlen (val big) ≤ i))
      simp [hi, this]
  set k := bitlen (val big) with hkdef
  have ht : val (chainAdd (chainAdd big (inv small k)) [1#32]) = val big - val small + 2 ^ k := by
    rw [val_chainAdd, val_chainAdd, hs]
    simp
    omega
  have hred : reducedForm (chainAdd (chainAdd big (inv small k)) [1#32]) = true := reducedForm_reduce _
  have hgt : bitlen (val (chainAdd (chainAdd big (inv small k)) [1#32])) > k := by
    rw [gt_iff_lt, lt_bitlen_iff, ht]
    omega
  have hbit : (val big - val small + 2 ^ k).testBit k = true := by
    rw [Nat.add_comm, Nat.testBit_two_pow_add_eq, Nat.testBit_lt_two_pow (by omega)]
    rfl
  rw [subLarger]
  simp only [← hkdef]
  rw [if_pos hgt, clearBit_eq hred, ht, if_pos hbit]
  congr 1
  omega

/-- The document's subtraction gives the absolute difference (R136). -/
theorem absDiff_eq {A B : List Limb} (ha : reducedForm A = true) (hb : reducedForm B = true) :
    absDiff A B = limbs ((val A - val B) + (val B - val A)) := by
  rw [absDiff, cmp_eq ha hb]
  rcases Nat.lt_trichotomy (val A) (val B) with h | h | h
  · rw [compare_lt_iff_lt.mpr h]
    simp only
    split
    · rename_i h0
      rw [h0]
      simp [limbs_val hb]
    · rw [val_subLarger h]
      congr 1
      omega
  · rw [compare_eq_iff_eq.mpr h, h]
    simp
  · rw [compare_gt_iff_gt.mpr h]
    simp only
    rw [val_subLarger h]
    congr 1
    omega

/-- The loop of the document's multiplication: with `tmp = A * 2^(p - c)` it adds to the accumulator `A` times the bits
of `B` from position `p` upward, at their places. -/
theorem val_mulLoop (B : List Limb) (a n p : Nat) (acc tmp : List Limb) (c : Nat) (hc : c ≤ p)
    (ht : val tmp = a * 2 ^ (p - c)) :
    val (mulLoop B n p acc tmp c) = val acc + a * 2 ^ p * (val B / 2 ^ p % 2 ^ n) := by
  induction n generalizing p acc tmp c with
  | zero => simp [mulLoop, Nat.mod_one]
  | succ n ih =>
    have hbits : val B / 2 ^ p % 2 ^ (n + 1) =
        (if (val B).testBit p then 1 else 0) + 2 * (val B / 2 ^ (p + 1) % 2 ^ n) := by
      have h1 : val B / 2 ^ (p + 1) = val B / 2 ^ p / 2 := by rw [pow_succ, Nat.div_div_eq_div_mul]
      rw [h1, pow_succ', Nat.mod_mul, Nat.testBit_eq_decide_div_mod_eq]
      have := Nat.mod_two_eq_zero_or_one (val B / 2 ^ p)
      rcases this with h | h <;> simp [h]
    have hpc : 2 ^ (p - c) * 2 ^ c = 2 ^ p := by rw [← pow_add]; congr 1; omega
    rw [mulLoop, seqBit_eq_testBit]
    by_cases hb : (val B).testBit p = true
    · have hshl : val (shl tmp c) = a * 2 ^ p := by rw [val_shl, ht, mul_assoc, hpc]
      rw [if_pos hb, ih (p + 1) _ _ _ (by omega) (by rw [hshl]; simp), val_chainAdd, hshl, hbits, if_pos hb, pow_succ]
      ring
    · rw [if_neg hb, ih (p + 1) _ _ _ (by omega) (by rw [ht]; congr 2; omega), hbits, if_neg hb, pow_succ]
      ring

/-- `val(shift_add_mul(A, B)) = val(A) * val(B)` exactly (R150). -/
theorem shiftAddMul_eq (A B : List Limb) : shiftAddMul A B = limbs (val A * val B) := by
  rw [shiftAddMul]
  split
  · rename_i h; simp [h]
  · rw [reduce_eq_limbs, val_mulLoop B (val A) _ 0 _ _ 0 le_rfl (by simp)]
    congr 1
    simp [Nat.mod_eq_of_lt (lt_two_pow_bitlen (val B))]

end Sys2Proof.Machine
end

