-- ==== Sys2Proof/Tests/Slice0.lean ====
section
/-! SUPPORT. Tests. Every expected value is the spec's: command words from the patterns of R86 and the words of
95_test_vectors.md, results from its tables 2.0 to 2.8. The last part shows, for each statement with hypotheses,
operands and a state that meet them. -/

open Sys2Proof Sys2Proof.Machine

namespace Sys2Proof.Tests

/-- A machine right after reset, its block of `cap` limbs, with some scalar and some BigNat registers set. -/
def start (cap : Nat) (xs : List (XReg × Limb)) (vs : List (VReg × List Limb)) : State :=
  { State.reset with
    toBlock := vs.foldl (fun b p => b.writeV p.1 p.2) (xs.foldl (fun b p => b.writeX p.1 p.2) Block.reset), cap := cap }

/-- One step that issues the word `w`. -/
def run (w : Word) (s : State) : Option State :=
  match step (s.withIssue w) with
  | .next t => some t
  | .fault _ => none
  | .refused _ => none

/-- What the host's transactions, done one after the other, leave. -/
def after (ts : List Transaction) (s : State) : Option State :=
  match ts with
  | [] => some s
  | t :: rest =>
    match step { s with pending := [t] } with
    | .next u => after rest u
    | .fault _ => none
    | .refused _ => none

/-! ### WellFormed: each way a word can be ill formed is refused (R88; table 2.0) -/

theorem test_wellformed_opcode_unassigned :
    [0x00000000#32, 0xFFFFFFFF#32, 0x19000000#32, 0x71000000#32].map wordWellFormed = [false, false, false, false] := by
  decide

theorem test_wellformed_zero_field_of_format_i : wordWellFormed 0x10210000#32 = false := by decide

theorem test_wellformed_zero_field_of_format_r :
    [0x20280001#32, 0x1820FFFF#32, 0x700C1401#32].map wordWellFormed = [false, false, false] := by decide

theorem test_wellformed_unused_xd : wordWellFormed 0x12281000#32 = false := by decide

theorem test_wellformed_unused_xs : wordWellFormed 0x18240000#32 = false := by decide

theorem test_wellformed_unused_xt : wordWellFormed 0x20288000#32 = false := by decide

theorem test_wellformed_unused_vd : wordWellFormed 0x20281000#32 = false := by decide

theorem test_wellformed_unused_vs : wordWellFormed 0x12041200#32 = false := by decide

theorem test_wellformed_accepts :
    [0x1020FFFF#32, 0x12081000#32, 0x700C1400#32].map wordWellFormed = [true, true, true] := by decide

theorem test_rows_disjoint : opcodeRows.Pairwise (fun r q => r.disjoint q = true) := by decide +kernel

/-! ### Decode: one word of every row, written bit by bit from its pattern (R86), with xd 5, xs 6, xt 3, vd 4, vs 1,
imm16 0xA30D -/

theorem test_decode_data_movement :
    decode 0b00010000101000001010001100001101#32 = .command (.ldi 5 0xA30D#16) ∧
    decode 0b00010001101000001010001100001101#32 = .command (.ldih 5 0xA30D#16) ∧
    decode 0b00010010000110000100000000000000#32 = .command (.vset 4 6) ∧
    decode 0b00010011000110011100000000000000#32 = .command (.vset64 4 6 3) ∧
    decode 0b00010100000000000100001000000000#32 = .command (.vmov 4 1) ∧
    decode 0b00010101101000000000001000000000#32 = .command (.vlen 5 1) ∧
    decode 0b00010110101110000000001000000000#32 = .command (.vgetl 5 1 6) ∧
    decode 0b00010111000110011100000000000000#32 = .command (.vputl 4 6 3) ∧
    decode 0b00011000101000000000000000000000#32 = .command (.mfov 5) := by decide

theorem test_decode_limb_adder :
    decode 0b00100000101110000000000000000000#32 = .command (.addl 5 6) ∧
    decode 0b00100001101110000000000000000000#32 = .command (.adcl 5 6) ∧
    decode 0b00100010000000000100001000000000#32 = .command (.vadd 4 1) ∧
    decode 0b00100011000110000100000000000000#32 = .command (.vadds 4 6) ∧
    decode 0b00100100000000000100001000000000#32 = .command (.vsub 4 1) := by decide

theorem test_decode_limb_multiplier :
    decode 0b00110000101110000000000000000000#32 = .command (.mull 5 6) ∧
    decode 0b00110001000000000100001000000000#32 = .command (.vmul 4 1) ∧
    decode 0b00110010000110000100000000000000#32 = .command (.vmuls 4 6) := by decide

theorem test_decode_barrel_shifter :
    decode 0b01000000101110000000000000000000#32 = .command (.shll 5 6) ∧
    decode 0b01000001101110000000000000000000#32 = .command (.shllo 5 6) ∧
    decode 0b01000010101110000000000000000000#32 = .command (.shrl 5 6) ∧
    decode 0b01000011101110011000000000000000#32 = .command (.shrnl 5 6 3) ∧
    decode 0b01000100000110000100000000000000#32 = .command (.vshl 4 6) ∧
    decode 0b01000101000110000100000000000000#32 = .command (.vshr 4 6) ∧
    decode 0b01000110000110000100000000000000#32 = .command (.vinv 4 6) ∧
    decode 0b01000111000110000100000000000000#32 = .command (.vsetb 4 6) ∧
    decode 0b01001000000110000100000000000000#32 = .command (.vclrb 4 6) ∧
    decode 0b01001001000110000000001000000000#32 = .command (.vtstb 1 6) := by decide

theorem test_decode_normalizer_shifter :
    decode 0b01010000101110000000000000000000#32 = .command (.ctzl 5 6) ∧
    decode 0b01010001101000000100000000000000#32 = .command (.vlal 5 4) ∧
    decode 0b01010010101000000100000000000000#32 = .command (.vral 5 4) := by decide

theorem test_decode_comparison_unit :
    decode 0b01100000000110011000000000000000#32 = .command (.cmpl 6 3) ∧
    decode 0b01100001000000000100001000000000#32 = .command (.vcmp 4 1) ∧
    decode 0b01100010101110000000000000000000#32 = .command (.log2l 5 6) ∧
    decode 0b01100011101000000000001000000000#32 = .command (.vlog2 5 1) := by decide

theorem test_decode_integer_divider :
    decode 0b01110000101110000100001000000000#32 = .command (.vdiv 5 4 1 6) := by decide

theorem test_decode_refuses_illegal_words :
    [0x00000000#32, 0xFFFFFFFF#32, 0x10210000#32, 0x20280001#32, 0x20288000#32, 0x20281000#32, 0x12041200#32,
      0x18240000#32, 0x12281000#32].map decode = List.replicate 9 .reservedEncoding := by decide

theorem test_table_word_decodes : decodeTableWord 32 0x700C1400 = some (.vdiv 0 1 2 3) := by decide

theorem test_table_word_refused : decodeTableWord 32 0x700C1401 = none := by decide

/-! ### One step of each command (tables 2.1 to 2.7) -/

/-- `LDI x7, 0xFFFF` -/
theorem test_ldi_zero_extends :
    (run 0x10E0FFFF#32 (start 64 [] [])).map (fun t => (t.readX 7)) =
      some (0xFFFF#32) := by decide

/-- `LDIH x1, 0x1234` -/
theorem test_ldih_keeps_low_half :
    (run 0x11201234#32 (start 64 [(1, 0xFFFF#32)] [])).map (fun t => (t.readX 1)) =
      some (0x1234FFFF#32) := by decide

/-- `LDIH x1, 0` -/
theorem test_ldih_clears_high_half :
    (run 0x11200000#32 (start 64 [(1, 0xFFFFFFFF#32)] [])).map (fun t => (t.readX 1)) =
      some (0xFFFF#32) := by decide

/-- `MFOV x3` -/
theorem test_mfov_copies_and_keeps_ov :
    (run 0x18600000#32 { start 64 [(3, 5#32)] [] with ov := 0xFFFFFFFE#32 }).map (fun t => (t.readX 3, t.ov)) =
      some (0xFFFFFFFE#32, 0xFFFFFFFE#32) := by decide

/-- `VSET V1, x2` -/
theorem test_vset_zero_is_one_limb :
    (run 0x12081000#32 (start 64 [(2, 0#32)] [(1, [9#32, 9#32])])).map (fun t => (t.readV 1)) =
      some ([0#32]) := by decide

/-- `VSET V1, x2` -/
theorem test_vset_one_limb :
    (run 0x12081000#32 (start 64 [(2, 0xFFFFFFFF#32)] [])).map (fun t => (t.readV 1)) =
      some ([0xFFFFFFFF#32]) := by decide

/-- `VSET64 V3, x1, x2` -/
theorem test_vset64_high_limb_kept :
    (run 0x13053000#32 (start 64 [(1, 0#32), (2, 1#32)] [])).map (fun t => (t.readV 3)) =
      some ([0#32, 1#32]) := by decide

/-- `VSET64 V3, x7, x7` -/
theorem test_vset64_same_register_twice :
    (run 0x131FB000#32 (start 64 [(7, 7#32)] [])).map (fun t => (t.readV 3)) =
      some ([7#32, 7#32]) := by decide

/-- `VMOV V0, V2` -/
theorem test_vmov_copies :
    (run 0x14000400#32 (start 64 [] [(2, [5#32, 1#32]), (0, [9#32])])).map
        (fun t => (t.readV 0, t.readV 2)) =
      some ([5#32, 1#32], [5#32, 1#32]) := by decide

/-- `VLEN x0, V3` -/
theorem test_vlen_counts_limbs :
    (run 0x15000600#32 (start 64 [] [(3, [0#32, 1#32])])).map (fun t => (t.readX 0)) =
      some (2#32) := by decide

/-- `VGETL x1, V3, x1` -/
theorem test_vgetl_index_read_before_write :
    (run 0x16240600#32 (start 64 [(1, 1#32)] [(3, [4#32, 6#32])])).map (fun t => (t.readX 1)) =
      some (6#32) := by decide

/-- `VGETL x2, V3, x1` -/
theorem test_vgetl_index_at_length_faults :
    run 0x16440600#32 (start 64 [(1, 1#32)] [(3, [0#32])]) =
      some (faultEntry .operandRange 0x16440600#32 (start 64 [(1, 1#32)] [(3, [0#32])])) := by decide

/-- `VPUTL V1, x1, x2` -/
theorem test_vputl_reduces_several_limbs :
    (run 0x17051000#32 (start 64 [(1, 2#32), (2, 0#32)] [(1, [0#32, 0#32, 7#32])])).map
        (fun t => (t.readV 1)) =
      some ([0#32]) := by decide

/-- `VPUTL V1, x1, x2` -/
theorem test_vputl_index_above_length_faults :
    run 0x17051000#32 (start 64 [(1, 2#32), (2, 1#32)] [(1, [5#32])]) =
      some (faultEntry .operandRange 0x17051000#32 (start 64 [(1, 2#32), (2, 1#32)] [(1, [5#32])])) := by decide

/-- `ADDL x1, x2` -/
theorem test_addl_carries_out :
    (run 0x20280000#32 (start 64 [(1, 0xFFFFFFFF#32), (2, 0xFFFFFFFF#32)] [])).map
        (fun t => (t.readX 1, t.flagC)) =
      some (0xFFFFFFFE#32, true) := by decide

/-- `ADDL x1, x1` -/
theorem test_addl_doubles :
    (run 0x20240000#32 (start 64 [(1, 0x80000000#32)] [])).map (fun t => (t.readX 1, t.flagC)) =
      some (0#32, true) := by decide

/-- `ADCL x3, x4` -/
theorem test_adcl_largest_accumulator :
    (run 0x21700000#32 ({ start 64 [(3, 0xFFFFFFFF#32), (4, 0xFFFFFFFF#32)] [] with status := 1#32 })).map (fun t => (t.readX 3, t.flagC)) =
      some (0xFFFFFFFF#32, true) := by decide

/-- `ADCL x3, x4` -/
theorem test_adcl_carry_alone_carries_out :
    (run 0x21700000#32 ({ start 64 [(3, 0xFFFFFFFF#32), (4, 0#32)] [] with status := 1#32 })).map
        (fun t => (t.readX 3, t.flagC)) =
      some (0#32, true) := by decide

/-- `VADD V1, V2` -/
theorem test_vadd_carry_appends_limb :
    (run 0x22001400#32 (start 64 [] [(1, [0xFFFFFFFF#32, 0xFFFFFFFF#32]), (2, [1#32])])).map
        (fun t => (t.readV 1)) =
      some ([0#32, 0#32, 1#32]) := by decide

/-- `VADD V1, V2` -/
theorem test_vadd_overflow_faults :
    run 0x22001400#32 (start 2 [] [(1, [0xFFFFFFFF#32, 0xFFFFFFFF#32]), (2, [1#32])]) =
      some (faultEntry .capacityOverflow 0x22001400#32 (start 2 [] [(1, [0xFFFFFFFF#32, 0xFFFFFFFF#32]),
        (2, [1#32])])) := by decide

/-- `VADDS V1, x2` -/
theorem test_vadds_carry_runs_through :
    (run 0x23081000#32 (start 64 [(2, 1#32)] [(1, [0xFFFFFFFF#32, 0xFFFFFFFF#32])])).map
        (fun t => (t.readV 1)) =
      some ([0#32, 0#32, 1#32]) := by decide

/-- `VADDS V1, x2` -/
theorem test_vadds_overflow_faults :
    run 0x23081000#32 (start 2 [(2, 1#32)] [(1, [0xFFFFFFFF#32, 0xFFFFFFFF#32])]) =
      some (faultEntry .capacityOverflow 0x23081000#32
        (start 2 [(2, 1#32)] [(1, [0xFFFFFFFF#32, 0xFFFFFFFF#32])])) := by decide

/-- `VSUB V1, V2` -/
theorem test_vsub_gives_absolute_difference :
    (run 0x24001400#32 (start 64 [] [(1, [1#32]), (2, [0#32, 1#32])])).map
        (fun t => (t.readV 1, t.readV 2)) =
      some ([0xFFFFFFFF#32], [0#32, 1#32]) := by decide

/-- `VSUB V1, V2` -/
theorem test_vsub_borrow_shortens :
    (run 0x24001400#32 (start 64 [] [(1, [0#32, 1#32]), (2, [1#32])])).map
        (fun t => (t.readV 1, t.readV 2)) =
      some ([0xFFFFFFFF#32], [1#32]) := by decide

/-- `MULL x1, x2` -/
theorem test_mull_largest_product :
    (run 0x30280000#32 (start 64 [(1, 0xFFFFFFFF#32), (2, 0xFFFFFFFF#32)] [])).map
        (fun t => (t.readX 1, t.ov)) =
      some (1#32, 0xFFFFFFFE#32) := by decide

/-- `MULL x1, x1` -/
theorem test_mull_squares :
    (run 0x30240000#32 (start 64 [(1, 0x80000000#32)] [])).map (fun t => (t.readX 1, t.ov)) =
      some (0#32, 0x40000000#32) := by decide

/-- `VMUL V1, V1` -/
theorem test_vmul_squares :
    (run 0x31001200#32 (start 64 [] [(1, [0xFFFFFFFF#32, 0xFFFFFFFF#32])])).map (fun t => (t.readV 1)) =
      some ([1#32, 0#32, 0xFFFFFFFE#32, 0xFFFFFFFF#32]) := by decide +kernel

/-- `VMUL V1, V2` -/
theorem test_vmul_by_zero :
    (run 0x31001400#32 (start 64 [] [(1, [5#32, 5#32]), (2, [0#32])])).map (fun t => (t.readV 1)) =
      some ([0#32]) := by decide

/-- `VMULS V1, x2` -/
theorem test_vmuls_carries_across_limbs :
    (run 0x32081000#32 (start 64 [(2, 0xFFFFFFFF#32)] [(1, [0xFFFFFFFF#32, 0xFFFFFFFF#32])])).map
        (fun t => (t.readV 1)) =
      some ([1#32, 0xFFFFFFFF#32, 0xFFFFFFFE#32]) := by decide +kernel

/-- `VMULS V1, x2` -/
theorem test_vmuls_overflow_faults :
    run 0x32081000#32 (start 2 [(2, 2#32)] [(1, [0xFFFFFFFF#32, 0xFFFFFFFF#32])]) =
      some (faultEntry .capacityOverflow 0x32081000#32
        (start 2 [(2, 2#32)] [(1, [0xFFFFFFFF#32, 0xFFFFFFFF#32])])) := by decide

/-- `SHLL x1, x2` -/
theorem test_shll_by_31 :
    (run 0x40280000#32 (start 64 [(1, 0xFFFFFFFF#32), (2, 0x1F#32)] [])).map (fun t => (t.readX 1, t.ov)) =
      some (0x80000000#32, 0x7FFFFFFF#32) := by decide

/-- `SHLL x1, x2` -/
theorem test_shll_by_32_faults :
    run 0x40280000#32 (start 64 [(1, 1#32), (2, 0x20#32)] []) =
      some (faultEntry .operandRange 0x40280000#32 (start 64 [(1, 1#32), (2, 0x20#32)] [])) := by decide

/-- `SHLLO x3, x2` -/
theorem test_shllo_ors_overflow_in :
    (run 0x41680000#32 { start 64 [(3, 0xFFFFFFFF#32), (2, 0x1F#32)] [] with ov := 0x7FFFFFFF#32 }).map
        (fun t => (t.readX 3, t.ov)) =
      some (0xFFFFFFFF#32, 0x7FFFFFFF#32) := by decide

/-- `SHLLO x3, x2` -/
theorem test_shllo_large_count_faults :
    run 0x41680000#32 { start 64 [(3, 1#32), (2, 0xFFFFFFFF#32)] [] with ov := 0#32 } =
      some (faultEntry .operandRange 0x41680000#32 { start 64 [(3, 1#32),
        (2, 0xFFFFFFFF#32)] [] with ov := 0#32 }) := by decide

/-- `SHRL x1, x2` -/
theorem test_shrl_by_31 :
    (run 0x42280000#32 (start 64 [(1, 0x80000001#32), (2, 0x1F#32)] [])).map (fun t => (t.readX 1)) =
      some (1#32) := by decide

/-- `SHRL x1, x2` -/
theorem test_shrl_by_32_faults :
    run 0x42280000#32 (start 64 [(1, 0x80000001#32), (2, 0x20#32)] []) =
      some (faultEntry .operandRange 0x42280000#32 (start 64 [(1, 0x80000001#32), (2, 0x20#32)] [])) := by decide

/-- `SHRNL x1, x2, x1` -/
theorem test_shrnl_rotates_own_bits :
    (run 0x43288000#32 (start 64 [(1, 0x80000001#32), (2, 4#32)] [])).map (fun t => (t.readX 1)) =
      some (0x18000000#32) := by decide

/-- `SHRNL x1, x2, x3` -/
theorem test_shrnl_by_33_faults :
    run 0x43298000#32 (start 64 [(1, 0#32), (2, 0x21#32), (3, 0xFFFFFFFF#32)] []) =
      some (faultEntry .operandRange 0x43298000#32 (start 64 [(1, 0#32),
        (2, 0x21#32), (3, 0xFFFFFFFF#32)] [])) := by decide

/-- `VSHL V1, x2` -/
theorem test_vshl_whole_limbs_and_bits :
    (run 0x44081000#32 (start 64 [(2, 0x24#32)] [(1, [0x80000001#32, 15#32])])).map (fun t => (t.readV 1)) =
      some ([0#32, 0x10#32, 0xF8#32]) := by decide

/-- `VSHL V1, x2` -/
theorem test_vshl_overflow_faults :
    run 0x44081000#32 (start 2 [(2, 0x3F#32)] [(1, [3#32])]) =
      some (faultEntry .capacityOverflow 0x44081000#32 (start 2 [(2, 0x3F#32)] [(1, [3#32])])) := by decide

/-- `VSHR V1, x2` -/
theorem test_vshr_whole_limbs_and_bits :
    (run 0x45081000#32 (start 64 [(2, 0x24#32)] [(1, [0#32, 0x10#32, 0xF8#32])])).map
        (fun t => (t.readV 1)) =
      some ([0x80000001#32, 15#32]) := by decide

/-- `VSHR V1, x2` -/
theorem test_vshr_by_any_count :
    (run 0x45081000#32 (start 64 [(2, 0xFFFFFFFF#32)] [(1, [5#32, 6#32])])).map (fun t => (t.readV 1)) =
      some ([0#32]) := by decide

/-- `VINV V1, x2` -/
theorem test_vinv_partial_limb :
    (run 0x46081000#32 (start 64 [(2, 0x28#32)] [(1, [0x12345678#32, 0x9ABCDEF0#32])])).map
        (fun t => (t.readV 1)) =
      some ([0xEDCBA987#32, 0x9ABCDE0F#32]) := by decide

/-- `VINV V1, x2` -/
theorem test_vinv_window_too_wide_faults :
    run 0x46081000#32 (start 2 [(2, 0x41#32)] [(1, [0#32])]) =
      some (faultEntry .capacityOverflow 0x46081000#32 (start 2 [(2, 0x41#32)] [(1, [0#32])])) := by decide

/-- `VSETB V1, x2` -/
theorem test_vsetb_extends_to_the_top_bit :
    (run 0x47081000#32 (start 2 [(2, 0x3F#32)] [(1, [0#32])])).map (fun t => (t.readV 1)) =
      some ([0#32, 0x80000000#32]) := by decide

/-- `VSETB V1, x2` -/
theorem test_vsetb_index_too_high_faults :
    run 0x47081000#32 (start 2 [(2, 0x40#32)] [(1, [0#32])]) =
      some (faultEntry .capacityOverflow 0x47081000#32 (start 2 [(2, 0x40#32)] [(1, [0#32])])) := by decide

/-- `VCLRB V1, x2` -/
theorem test_vclrb_shortens :
    (run 0x48081000#32 (start 64 [(2, 0x40#32)] [(1, [0#32, 0#32, 1#32])])).map (fun t => (t.readV 1)) =
      some ([0#32]) := by decide

/-- `VCLRB V1, x2` -/
theorem test_vclrb_above_value_changes_nothing :
    (run 0x48081000#32 (start 64 [(2, 0x64#32)] [(1, [5#32])])).map (fun t => (t.readV 1)) =
      some ([5#32]) := by decide

/-- `VTSTB V1, x2` -/
theorem test_vtstb_reads_top_bit :
    (run 0x49080200#32 (start 64 [(2, 0x3F#32)] [(1, [0#32, 0x80000000#32])])).map (fun t => (t.flagT)) =
      some (true) := by decide

/-- `VTSTB V1, x2` -/
theorem test_vtstb_above_value_reads_0 :
    (run 0x49080200#32 ({ start 64 [(2, 0x3E8#32)] [(1, [5#32])] with status := 8#32 })).map
        (fun t => (t.flagT)) =
      some (false) := by decide

/-- `CTZL x1, x2` -/
theorem test_ctzl_of_top_bit :
    (run 0x50280000#32 (start 64 [(2, 0x80000000#32)] [])).map (fun t => (t.readX 1)) =
      some (0x1F#32) := by decide

/-- `CTZL x1, x2` -/
theorem test_ctzl_of_zero_faults :
    run 0x50280000#32 (start 64 [(2, 0#32)] []) =
      some (faultEntry .zeroOperand 0x50280000#32 (start 64 [(2, 0#32)] [])) := by decide

/-- `VLAL x0, V1` -/
theorem test_vlal_aligns_and_keeps_length :
    (run 0x51001000#32 (start 64 [] [(1, [0xFFFFFFFF#32, 0x8000#32])])).map
        (fun t => (t.readX 0, t.readV 1)) =
      some (0x10#32, [0xFFFF0000#32, 0x8000FFFF#32]) := by decide

/-- `VLAL x0, V1` -/
theorem test_vlal_of_zero :
    (run 0x51001000#32 (start 64 [(0, 9#32)] [(1, [0#32])])).map (fun t => (t.readX 0, t.readV 1)) =
      some (0#32, [0#32]) := by decide

/-- `VRAL x0, V1` -/
theorem test_vral_drops_limbs_and_bits :
    (run 0x52001000#32 (start 64 [] [(1, [0#32, 0#32, 0x50#32])])).map (fun t => (t.readX 0, t.readV 1)) =
      some (0x44#32, [5#32]) := by decide

/-- `VRAL x0, V1` -/
theorem test_vral_of_zero :
    (run 0x52001000#32 (start 64 [(0, 9#32)] [(1, [0#32])])).map (fun t => (t.readX 0, t.readV 1)) =
      some (0#32, [0#32]) := by decide

/-- `CMPL x1, x2` -/
theorem test_cmpl_is_unsigned :
    (run 0x60050000#32 (start 64 [(1, 0#32), (2, 0xFFFFFFFF#32)] [])).map (fun t => (t.flagEQ, t.flagLT)) =
      some (false, true) := by decide

/-- `CMPL x1, x2` -/
theorem test_cmpl_greater_clears_both :
    (run 0x60050000#32 ({ start 64 [(1, 0x80000000#32),
        (2, 0x7FFFFFFF#32)] [] with status := 2#32 })).map (fun t => (t.flagEQ, t.flagLT)) =
      some (false, false) := by decide

/-- `VCMP V1, V2` -/
theorem test_vcmp_length_decides :
    (run 0x61001400#32 (start 64 [] [(1, [0xFFFFFFFF#32]), (2, [0#32, 1#32])])).map
        (fun t => (t.flagEQ, t.flagLT)) =
      some (false, true) := by decide

/-- `VCMP V1, V2` -/
theorem test_vcmp_highest_difference_decides :
    (run 0x61001400#32 (start 64 [] [(1, [1#32, 2#32]), (2, [2#32, 2#32])])).map
        (fun t => (t.flagEQ, t.flagLT)) =
      some (false, true) := by decide

/-- `LOG2L x1, x2` -/
theorem test_log2l_of_top_bit :
    (run 0x62280000#32 (start 64 [(2, 0x80000000#32)] [])).map (fun t => (t.readX 1)) =
      some (0x1F#32) := by decide

/-- `LOG2L x1, x2` -/
theorem test_log2l_of_zero_faults :
    run 0x62280000#32 (start 64 [(2, 0#32)] []) =
      some (faultEntry .zeroOperand 0x62280000#32 (start 64 [(2, 0#32)] [])) := by decide

/-- `VLOG2 x0, V1` -/
theorem test_vlog2_counts_limbs_and_bits :
    (run 0x63000200#32 (start 64 [] [(1, [0#32, 0#32, 0x50#32])])).map (fun t => (t.readX 0)) =
      some (0x46#32) := by decide

/-- `VLOG2 x0, V1` -/
theorem test_vlog2_of_zero_faults :
    run 0x63000200#32 (start 64 [] [(1, [0#32])]) =
      some (faultEntry .zeroOperand 0x63000200#32 (start 64 [] [(1, [0#32])])) := by decide

/-- `VDIV x0, V1, V2, x3` -/
theorem test_vdiv_sets_sticky_bit :
    (run 0x700C1400#32 (start 64 [(3, 2#32)] [(1, [2#32]), (2, [3#32])])).map
        (fun t => (t.readX 0, t.readV 1, t.readV 2)) =
      some (2#32, [3#32], [3#32]) := by decide

/-- `VDIV x0, V1, V2, x3` -/
theorem test_vdiv_small_quotient_long_accuracy :
    (run 0x700C1400#32 (start 64 [(3, 0x32#32)] [(1, [1#32]), (2, [1#32, 0x100#32])])).map
        (fun t => (t.readX 0, t.readV 1, t.readV 2)) =
      some (0x32#32, [0x3FF#32], [1#32, 0x100#32]) := by decide

/-! ### Faults, the faulted state, Observe, Reset (table 2.8) -/

theorem test_illegal_word_comes_before_operands :
    run 0x62680001#32 State.reset = some (faultEntry .reservedEncoding 0x62680001#32 State.reset) := by decide

theorem test_divide_by_zero_comes_before_capacity :
    (run 0x700C1400#32 (start 2 [(3, 1000#32)] [(1, [1#32])])).map (fun t => t.cause) = some 4#32 := by decide

theorem test_append_faults_when_full :
    (run 0x17051000#32 (start 2 [(1, 2#32), (2, 3#32)] [(1, [1#32, 2#32])])).map (fun t => t.cause) = some 5#32 := by
  decide

theorem test_append_of_zero_when_full :
    (run 0x17051000#32 (start 2 [(1, 2#32)] [(1, [1#32, 2#32])])).map (fun t => (t.cause, t.readV 1)) =
      some (0#32, [1#32, 2#32]) := by decide

theorem test_divide_width_fits_and_not :
    (run 0x700C1400#32 (start 2 [(3, 62#32)] [(1, [1#32]), (2, [3#32])])).map (fun t => (t.cause, t.readV 1)) =
      some (0#32, [0x55555555#32, 0x15555555#32]) ∧
    (run 0x700C1400#32 (start 2 [(3, 63#32)] [(1, [1#32]), (2, [3#32])])).map (fun t => t.cause) = some 5#32 := by
  decide

theorem test_faulted_block_discards :
    (after [.issue 0x10200007#32, .issue 0x00000000#32, .issue 0x50280000#32, .issue 0x10200009#32] State.reset).map
      (fun t => (t.readX 1, t.status, t.cause, t.fcmd)) = some (7#32, 0x80000000#32, 1#32, 0#32) := by decide

theorem test_observe_while_faulted :
    (after [.issue 0x00000000#32, .observe 0x10] State.reset).map (fun t => t.reply) = some (some 0x80000000#32) := by
  decide

theorem test_reset_resumes :
    (after [.issue 0x00000000#32, .reset, .issue 0x10200009#32] State.reset).map (fun t => (t.readX 1, t.status)) =
      some (9#32, 0#32) := by decide

/-- The end state of program P1, as far as the Observe table of 2.8 gives it. -/
def endOfP1 : State :=
  { start 64 [(1, 1#32), (7, 2#32)] [(1, [1#32, 1#32, 1#32]), (2, [2#32, 1#32])] with status := 2#32 }

theorem test_observe_table :
    [0x01, 0x07, 0x10, 0x11, 0x12, 0x13, 0x21, 0x22, 0x20, 0x08, 0x30, 0xFF].map endOfP1.observe =
      [1#32, 2#32, 2#32, 0#32, 0#32, 0#32, 3#32, 2#32, 1#32, 0#32, 0#32, 0#32] := by decide

theorem test_observe_limbs :
    [endOfP1.observeLimb 0x41 2, endOfP1.observeLimb 0x41 3, endOfP1.observeLimb 0x42 0] = [1#32, 0#32, 2#32] := by
  decide

theorem test_block_step_takes_cap_and_word :
    (Block.step 2 (start 2 [] [(1, [1#32, 1#32])]).toBlock 0x31001200#32).cause = 5#32 ∧
    (Block.step 8 (start 2 [] [(1, [1#32, 1#32])]).toBlock 0x31001200#32).readV 1 = [1#32, 2#32, 1#32] := by
  decide +kernel

theorem test_fetch_word_runs_first :
    (match step (State.reset.withFetchWord 32 0x10E0FFFF) with | .next t => t.readX 7 | _ => 0#32) = 0xFFFF#32 := by
  decide

/-! ### Assembler text (R91, R92; table 2.0) -/

theorem test_assembler_examples :
    ["LDI x1, 0xFFFF", "ADDL x1, x2", "VDIV x0, V1, V2, x3", "VSET64 V3, x1, x2 ; a comment", "LI32 x1, 0x80000001",
      "LI32 x3, 345678901"].map (fun l => (assembleLine l.toList).map fun is => is.map encode) =
    [some [0x1020FFFF#32], some [0x20280000#32], some [0x700C1400#32], some [0x13053000#32],
      some [0x10200001#32, 0x11208000#32], some [0x1060A435#32, 0x1160149A#32]] := by decide

theorem test_assembler_refuses :
    ["LDI x1, 65536", "ADDL x1, x8", "ADDL V1, x2", "NOP"].map (fun l => assembleLine l.toList) =
      [none, none, none, none] := by decide

/-! ### The hypotheses of each statement are met, each clause at the edge of its range -/

/-- A legal state of a block of two limbs, with counts on both sides of 32 and of 64. -/
def edge : State :=
  start 2 [(1, 1#32), (2, 2#32), (3, 31#32), (4, 32#32), (5, 63#32), (6, 64#32), (7, 65#32)]
    [(1, [0xFFFFFFFF#32, 0xFFFFFFFF#32]), (2, [1#32]), (3, [0#32, 0x80000000#32]), (4, [0xFFFFFFFF#32]), (5, [2#32]),
      (6, [0xFFFFFFFF#32, 0x7FFFFFFF#32])]

/-- `edge` after a fault. -/
def faulted : State := faultEntry .reservedEncoding 0#32 edge

theorem witness_EncodeInvertsDecode : decode 0x700C1400#32 = .command (.vdiv 0 1 2 3) := by decide

theorem witness_DecodeAcceptsExactlyTheRows :
    (∃ r ∈ opcodeRows, r.accepts 0x1020FFFF#32 = true) ∧ (∀ r ∈ opcodeRows, r.accepts 0x10210000#32 = false) := by
  decide

theorem witness_NoWordMatchesTwoRows :
    ∃ r ∈ opcodeRows, ∃ q ∈ opcodeRows, r.accepts 0x1020FFFF#32 = true ∧ q.accepts 0x1020FFFF#32 = true := by decide

theorem witness_StepRunsTheDecodedCommand :
    (edge.withIssue 0x20280000#32).pending = .issue 0x20280000#32 :: [] ∧
      (edge.withIssue 0x20280000#32).flagF = false ∧ decode 0x20280000#32 = .command (.addl 1 2) := by decide

theorem witness_IllegalWordsRaiseReservedEncoding :
    edge.flagF = false ∧ (∀ r ∈ opcodeRows, r.accepts 0x10210000#32 = false) := by decide

theorem witness_FaultedBlockDiscardsCommands :
    faulted.flagF = true ∧
      ({ faulted with pending := [.issue 0x20280000#32] } : State).pending = .issue 0x20280000#32 :: [] ∧
      ({ faulted with pending := [.observe 0x10] } : State).pending = .observe 0x10 :: [] ∧
      ({ faulted with pending := [.observeLimb 0x41 1] } : State).pending = .observeLimb 0x41 1 :: [] := by decide

theorem witness_ResetIsTheOnlyWayOut :
    ({ faulted with pending := [.reset] } : State).pending = .reset :: [] ∧
      ∃ t, step { faulted with pending := [.reset] } = .next t ∧
        ({ faulted with pending := [.reset] } : State).flagF = true ∧ t.flagF = false :=
  ⟨rfl, _, rfl, by decide, by decide⟩

theorem witness_ObserveReturnsTheTable :
    1 < (edge.readV 1).length ∧ (edge.readV 1).length ≤ 2 ∧
      [0x08, 0x0F, 0x14, 0x1F, 0x28, 0x3F, 0x48].map edge.observe = List.replicate 7 0#32 ∧
      ({ edge with pending := [.observe 0x10] } : State).pending = .observe 0x10 :: [] ∧
      ({ edge with pending := [.observeLimb 0x41 1] } : State).pending = .observeLimb 0x41 1 :: [] := by decide

theorem witness_StepIsTotal : State.reset.pending = [] := by decide

theorem witness_StepKeepsLegalStates :
    (edge.withIssue 0x22001400#32).Inv ∧ (∃ t, step (edge.withIssue 0x22001400#32) = .next t) :=
  ⟨by decide, _, rfl⟩

theorem witness_FaultEntryIsPrecise :
    edge.flagF = false ∧ ∃ t, issue 0x10210000#32 edge = .next t ∧ t.flagF = true :=
  ⟨by decide, _, rfl, by decide⟩

theorem witness_CommandsRaiseOnlyTheirFaults :
    (∃ t, exec (.ldi 1 5#16) edge = .next t) ∧ (∃ t, exec (.shll 1 4) edge = .next t ∧ t.flagF = true) :=
  ⟨⟨_, rfl⟩, _, rfl, by decide⟩

theorem witness_ScalarWritesFollowTheTable : ∃ t, exec (.addl 1 2) edge = .next t ∧ writesX (.addl 1 2) ≠ some 2 :=
  ⟨_, rfl, by decide⟩

theorem witness_BigNatWritesFollowTheTable : ∃ t, exec (.vsub 1 2) edge = .next t ∧ writesV (.vsub 1 2) ≠ some 2 :=
  ⟨_, rfl, by decide⟩

theorem witness_FlagAndOverflowWriters :
    ∃ t, exec (.ldi 1 5#16) edge = .next t ∧ writesOV (.ldi 1 5#16) = false ∧ writesC (.ldi 1 5#16) = false ∧
      writesCompare (.ldi 1 5#16) = false ∧ writesT (.ldi 1 5#16) = false :=
  ⟨_, rfl, by decide⟩

theorem witness_CommandsActOnTheBlockAlone : ∃ t, exec (.vsub 1 2) edge = .next t := ⟨_, rfl⟩

/-- A state that differs from `edge` in a scalar register, in a BigNat register, in T and in OV. -/
def edge2 : State := edge.withBlock ((((edge.writeX 7 9#32).writeV 6 [5#32]).setT true).writeOV 3#32)

theorem witness_CommandReadsOnlyItsOperands_completes :
    edge.flagF = false ∧ edge2.flagF = false ∧ edge.cap = edge2.cap ∧
      (∀ r ∈ readsX (.adcl 1 2), edge.readX r = edge2.readX r) ∧ (∀ r ∈ readsV (.adcl 1 2), edge.readV r = edge2.readV r) ∧
      (readsC (.adcl 1 2) = true → edge.flagC = edge2.flagC) ∧ (readsOV (.adcl 1 2) = true → edge.ov = edge2.ov) ∧
      ∃ t₁ t₂, exec (.adcl 1 2) edge = .next t₁ ∧ exec (.adcl 1 2) edge2 = .next t₂ ∧ t₁.flagF = false :=
  ⟨by decide, by decide, by decide, by decide, by decide, by decide, by decide, _, _, rfl, rfl, by decide⟩

theorem witness_CommandReadsOnlyItsOperands_faults :
    (∀ r ∈ readsX (.shll 1 4), edge.readX r = edge2.readX r) ∧
      ∃ t₁ t₂, exec (.shll 1 4) edge = .next t₁ ∧ exec (.shll 1 4) edge2 = .next t₂ ∧ t₁.flagF = true :=
  ⟨by decide, _, _, rfl, rfl, by decide⟩

theorem witness_VgetlReadsOneLimb :
    (edge.readX 1).toNat < (edge.readV 1).length ∧ (edge.readV 1).length ≤ (edge.readX 2).toNat := by decide

theorem witness_VputlWritesOneLimb :
    (edge.wfV 1 = true ∧ (edge.readX 1).toNat < (edge.readV 1).length) ∧
      (edge.wfV 1 = true ∧ (edge.readX 2).toNat = (edge.readV 1).length ∧ edge.readX 0 = 0#32) ∧
      (edge.wfV 2 = true ∧ (edge.readX 1).toNat = (edge.readV 2).length ∧ edge.readX 2 ≠ 0#32 ∧
        (edge.readV 2).length < edge.cap) ∧
      (edge.wfV 1 = true ∧ (edge.readX 2).toNat = (edge.readV 1).length ∧ edge.readX 1 ≠ 0#32 ∧
        (edge.readV 1).length = edge.cap) ∧
      (edge.wfV 2 = true ∧ (edge.readV 2).length < (edge.readX 2).toNat) := by decide

theorem witness_VaddAddsExactly :
    edge.capLegal ∧ bitlen (edge.valV 6 + edge.valV 2) ≤ 32 * edge.cap ∧
      32 * edge.cap < bitlen (edge.valV 1 + edge.valV 2) := by decide

theorem witness_VaddsAddsScalar :
    edge.capLegal ∧ bitlen (edge.valV 6 + (edge.readX 1).toNat) ≤ 32 * edge.cap ∧
      32 * edge.cap < bitlen (edge.valV 1 + (edge.readX 1).toNat) := by decide

theorem witness_VsubIsAbsoluteDifference : edge.wfV 1 = true ∧ edge.wfV 2 = true := by decide

theorem witness_VmulMultipliesExactly :
    edge.capLegal ∧ bitlen (edge.valV 1 * edge.valV 2) ≤ 32 * edge.cap ∧
      32 * edge.cap < bitlen (edge.valV 1 * edge.valV 5) := by decide

theorem witness_VmulsMultipliesByScalar :
    edge.capLegal ∧ bitlen (edge.valV 1 * (edge.readX 1).toNat) ≤ 32 * edge.cap ∧
      32 * edge.cap < bitlen (edge.valV 1 * (edge.readX 2).toNat) := by decide

theorem witness_ShllAndShlloShiftLimbs : (edge.readX 3).toNat < 32 ∧ 32 ≤ (edge.readX 4).toNat := by decide

theorem witness_ShrlAndShrnlShiftLimbs : (edge.readX 3).toNat < 32 ∧ 32 ≤ (edge.readX 4).toNat := by decide

theorem witness_VshlShiftsLeft :
    edge.valV 0 = 0 ∧ bitlen (edge.valV 2) + (edge.readX 5).toNat ≤ 32 * edge.cap ∧
      (edge.valV 2 ≠ 0 ∧ 32 * edge.cap < bitlen (edge.valV 2) + (edge.readX 6).toNat) := by decide

theorem witness_VinvComplementsWindow :
    (edge.readX 6).toNat ≤ 32 * edge.cap ∧ 32 * edge.cap < (edge.readX 7).toNat := by decide

theorem witness_VsetbSetsBit :
    edge.wfV 1 = true ∧ (edge.readX 5).toNat < 32 * edge.cap ∧ 32 * edge.cap ≤ (edge.readX 6).toNat := by decide

theorem witness_VclrbClearsBit :
    edge.wfV 1 = true ∧ (edge.valV 1).testBit (edge.readX 5).toNat = true ∧
      (edge.valV 1).testBit (edge.readX 6).toNat = false := by decide

theorem witness_CtzlFindsLowestBit : edge.readX 1 ≠ 0#32 ∧ edge.readX 0 = 0#32 := by decide

theorem witness_VlalLeftAligns :
    (edge.wfV 2 = true ∧ edge.valV 2 ≠ 0) ∧ (edge.wfV 0 = true ∧ edge.valV 0 = 0) := by decide

theorem witness_VralRightAligns :
    (edge.wfV 3 = true ∧ edge.valV 3 ≠ 0) ∧ (edge.wfV 0 = true ∧ edge.valV 0 = 0) := by decide

theorem witness_RightAlignAfterLeftAlign :
    (edge.capLegal ∧ edge.wfV 2 = true ∧ edge.valV 2 ≠ 0) ∧ (edge.capLegal ∧ edge.wfV 3 = true ∧ edge.valV 3 ≠ 0) := by
  decide

theorem witness_CmplAndVcmpSetFlags : edge.wfV 1 = true ∧ edge.wfV 6 = true := by decide

theorem witness_Log2lAndVlog2FindHighestBit :
    (edge.readX 1 ≠ 0#32 ∧ edge.readX 0 = 0#32) ∧ (edge.wfV 2 = true ∧ edge.valV 2 ≠ 0) ∧
      (edge.wfV 0 = true ∧ edge.valV 0 = 0) := by decide

theorem witness_VdivDividesFractionally :
    (edge.valV 2 ≠ 0 ∧ edge.valV 0 = 0) ∧
      (edge.valV 2 ≠ 0 ∧
        max (bitlen (edge.valV 4) + (edge.readX 3).toNat) (bitlen (edge.valV 2)) + 1 ≤ 32 * edge.cap) := by decide

theorem witness_VdivFaultsInOrder :
    edge.valV 0 = 0 ∧
      (edge.valV 2 ≠ 0 ∧
        32 * edge.cap < max (bitlen (edge.valV 2) + (edge.readX 5).toNat) (bitlen (edge.valV 2)) + 1) := by decide

theorem witness_DividerLoopHasClosedForm : 0 < 1 ∧ fracDiv 7 1 0 = 7 := by decide

theorem witness_DividerErrorIsBelowDenominator : 0 < 1 ∧ natDiff (fracDiv 7 1 0 * 1) (7 * 2 ^ 0) = 0 := by decide

theorem witness_DeBruijnFormFindsLowestBit : (1#32 : Limb) ≠ 0#32 := by decide

theorem witness_Li32LoadsWholeWord : (0xFFFF#32 : Word).toNat < 65536 := by decide

theorem witness_AddThenSubtractRestores :
    (6 : VReg) ≠ 2 ∧ edge.capLegal ∧ edge.wfV 6 = true ∧ edge.wfV 2 = true ∧
      bitlen (edge.valV 6 + edge.valV 2) ≤ 32 * edge.cap := by decide

theorem witness_ShiftAndInvertRoundTrips :
    edge.wfV 2 = true ∧ bitlen (edge.valV 2) + (edge.readX 5).toNat ≤ 32 * edge.cap ∧
      (edge.readX 6).toNat ≤ 32 * edge.cap ∧ (edge.wfV 0 = true ∧ edge.valV 0 = 0) := by decide

theorem witness_MullAgreesWithVmul :
    edge.capLegal ∧ edge.readV 2 = [edge.readX 1] ∧ edge.readV 5 = [edge.readX 2] := by decide

theorem witness_LimbChainsComputeTwoLimbValues :
    ((1 : XReg) ≠ 2 ∧ (1 : XReg) ≠ 4) ∧ ((1 : XReg) ≠ 2 ∧ (1 : XReg) ≠ 3 ∧ (edge.readX 3).toNat < 32) := by decide

theorem witness_EarlyCapacityTestsAgree :
    edge.wfV 2 = true ∧
      ((shl (edge.readV 2) (edge.readX 5).toNat).length = edge.cap ∧
        edge.cap < (shl (edge.readV 2) (edge.readX 6).toNat).length) ∧
      ((inv (edge.readV 2) (edge.readX 6).toNat).length = edge.cap ∧
        edge.cap < (inv (edge.readV 2) (edge.readX 7).toNat).length) ∧
      ((setBit (edge.readV 2) (edge.readX 5).toNat).length = edge.cap ∧
        edge.cap < (setBit (edge.readV 2) (edge.readX 6).toNat).length) := by decide

end Sys2Proof.Tests
end

section
/-! PROOFS of the family 00_scope.md. Exec and Issue on the machine's state are Block.exec and Block.step on its block,
and the parameters of the step (R41) are carried along. -/

namespace Sys2Proof.Proofs.Scope

open Sys2Proof Sys2Proof.Machine

/-- Every arm of exec is the arm of Block.exec for the same command, applied to the block (R41, R291). -/
theorem exec_eq_withBlock (i : Instr) (s : State) : exec i s = .next (s.withBlock (Block.exec s.cap i s.toBlock)) := by
  cases i <;> rfl

theorem toStepParams_of_exec {i : Instr} {s t : State} (h : exec i s = .next t) : t.toStepParams = s.toStepParams := by
  rw [exec_eq_withBlock] at h
  rw [← Host.Outcome.next.inj h, withBlock_toStepParams]

/-! ### Issue, one equation per branch of R291 -/

theorem issue_of_faulted (w : Word) {s : State} (hf : s.flagF = true) : issue w s = .next s := by
  simp [issue, hf]

theorem issue_of_reservedEncoding {w : Word} {s : State} (hf : s.flagF = false) (hd : decode w = .reservedEncoding) :
    issue w s = .next (faultEntry .reservedEncoding w s) := by
  simp [issue, hf, hd]

theorem issue_of_command {w : Word} {i : Instr} {s : State} (hf : s.flagF = false) (hd : decode w = .command i) :
    issue w s = exec i s := by
  simp [issue, hf, hd]

/-- The three branches of R291 agree: Issue on the machine's state is the step over its block. -/
theorem issue_eq_withBlock (w : Word) (s : State) : issue w s = .next (s.withBlock (Block.step s.cap s.toBlock w)) := by
  obtain ⟨hf, hb⟩ | ⟨hf, hd, hb⟩ | ⟨hf, i, hd, hb⟩ := block_step_cases s.cap s.toBlock w
  · rw [issue_of_faulted w hf, hb, withBlock_self]
  · rw [issue_of_reservedEncoding hf hd, hb]
    rfl
  · rw [issue_of_command hf hd, hb, exec_eq_withBlock]

/-- Settles O20: the factorings of exec and Issue through the block, and the parameters that exec keeps, field by
field. -/
theorem commandsActOnTheBlockAlone : Obligations.CommandsActOnTheBlockAlone := by
  refine ⟨exec_eq_withBlock, issue_eq_withBlock, fun i s t h => ?_⟩
  have hp : t.toStepParams = s.toStepParams := toStepParams_of_exec h
  exact ⟨congrArg StepParams.cap hp, congrArg StepParams.pending hp, congrArg StepParams.reply hp⟩

end Sys2Proof.Proofs.Scope
end

section
/-! PROOFS of the family 10_state.md. Every command is brought into one form: it raises a fault, or it writes values to the
destinations the access tables give it (R22, R26, R28 to R32), and which of the two, and the values, follow from the operands
the tables say it reads. The frames, the flag writers and the dependence on the operands are read off that form. The step
lemma of the invariant adds that every value written to a BigNat register keeps R24. -/

namespace Sys2Proof.Proofs.StateFamily

open Sys2Proof Sys2Proof.Machine Sys2Proof.Proofs.Scope

/-! ### STATUS under a mask, and a bit put on a condition -/

/-- A mask that leaves out bit `n` does not see what is put there. -/
theorem putBit_and_mask {mask : Word} {n : Nat} (w : Word) (b : Bool) (hn : n < 32) (hm : mask.getLsbD n = false) :
    putBit w n b &&& mask = w &&& mask := by
  apply BitVec.eq_of_getLsbD_eq
  intro i _
  rw [BitVec.getLsbD_and, BitVec.getLsbD_and, getLsbD_putBit _ _ _ _ hn]
  by_cases hi : i = n
  · simp [hi, hm]
  · simp [hi]

/-- Bit `n` put to `b` when `c` holds, the word kept otherwise. -/
def putBitIf (c : Bool) (w : Word) (n : Nat) (b : Bool) : Word := bif c then putBit w n b else w

theorem getLsbD_putBitIf (c : Bool) (w : Word) (n i : Nat) (b : Bool) (hn : n < 32) :
    (putBitIf c w n b).getLsbD i = if c = true ∧ i = n then b else w.getLsbD i := by
  cases c
  · simp [putBitIf]
  · simp [putBitIf, getLsbD_putBit w n i b hn]

theorem putBitIf_and_reserved (c : Bool) (w : Word) (n : Nat) (b : Bool) (hn : n < 4) :
    putBitIf c w n b &&& reservedStatus = w &&& reservedStatus := by
  have hm : ∀ k < 4, reservedStatus.getLsbD k = false := by decide
  cases c
  · rfl
  · exact putBit_and_mask w b (by omega) (hm n hn)

/-! ### A completing command: values written to the destinations of the tables -/

/-- The values a completing command writes, one for each kind of destination; those of kinds the command does not write are
not used. -/
structure Results where
  x : Limb := 0#32
  v : List Limb := []
  ov : Limb := 0#32
  c : Bool := false
  order : Ordering := .eq
  t : Bool := false

/-- STATUS after the command: C, EQ with LT, and T written as R30, R31 and R32 say. -/
def statusAfter (i : Instr) (w : Results) (status : Word) : Word :=
  putBitIf (writesT i)
    (putBitIf (writesCompare i)
      (putBitIf (writesCompare i) (putBitIf (writesC i) status bitC w.c) bitEQ (w.order == .eq)) bitLT (w.order == .lt))
    bitT w.t

/-- The block after command `i` completes with the values `w`: the destinations of the access tables (R22, R26, R28 to R32)
are written and nothing else. `exec_alike` ties it to the rules of the commands. -/
def complete (i : Instr) (w : Results) (b : Block) : Block where
  x := (writesX i).elim b.x fun r => b.x.set r w.x
  v := (writesV i).elim b.v fun r => b.v.set r w.v
  ov := bif writesOV i then w.ov else b.ov
  status := statusAfter i w b.status
  cause := b.cause
  fcmd := b.fcmd

section Complete

variable {i : Instr} (w : Results) (b : Block)

theorem complete_readX_of_ne {r : XReg} (h : writesX i ≠ some r) : (complete i w b).readX r = b.readX r := by
  cases hw : writesX i with
  | none => simp [complete, Block.readX, hw]
  | some q =>
    have hq : r ≠ q := by rintro rfl; exact h hw
    have hset := writeX_readX b q r w.x
    rw [if_neg hq] at hset
    rw [← hset]
    simp [complete, Block.readX, Block.writeX, hw]

theorem complete_readX_dest {r : XReg} (h : writesX i = some r) : (complete i w b).readX r = w.x := by
  simp [complete, Block.readX, h]

theorem complete_readV_of_ne {r : VReg} (h : writesV i ≠ some r) : (complete i w b).readV r = b.readV r := by
  cases hw : writesV i with
  | none => simp [complete, Block.readV, hw]
  | some q =>
    have hq : r ≠ q := by rintro rfl; exact h hw
    have hset := writeV_readV b q r w.v
    rw [if_neg hq] at hset
    rw [← hset]
    simp [complete, Block.readV, Block.writeV, hw]

theorem complete_readV_dest {r : VReg} (h : writesV i = some r) : (complete i w b).readV r = w.v := by
  simp [complete, Block.readV, h]

@[simp] theorem complete_ov : (complete i w b).ov = bif writesOV i then w.ov else b.ov := rfl
@[simp] theorem complete_cause : (complete i w b).cause = b.cause := rfl
@[simp] theorem complete_fcmd : (complete i w b).fcmd = b.fcmd := rfl

/-- Each bit of STATUS after the command: the value written where the command writes that bit, else the old bit. -/
theorem statusAfter_getLsbD (i : Instr) (w : Results) (status : Word) (n : Nat) :
    (statusAfter i w status).getLsbD n =
      if writesT i = true ∧ n = bitT then w.t
      else if writesCompare i = true ∧ n = bitLT then w.order == .lt
      else if writesCompare i = true ∧ n = bitEQ then w.order == .eq
      else if writesC i = true ∧ n = bitC then w.c
      else status.getLsbD n := by
  unfold statusAfter
  rw [getLsbD_putBitIf _ _ _ _ _ (by decide), getLsbD_putBitIf _ _ _ _ _ (by decide),
    getLsbD_putBitIf _ _ _ _ _ (by decide), getLsbD_putBitIf _ _ _ _ _ (by decide)]

@[simp] theorem complete_flagC : (complete i w b).flagC = if writesC i = true then w.c else b.flagC := 
  (statusAfter_getLsbD i w b.status bitC).trans (by simp [Block.flagC])

@[simp] theorem complete_flagEQ :
    (complete i w b).flagEQ = if writesCompare i = true then w.order == .eq else b.flagEQ := 
  (statusAfter_getLsbD i w b.status bitEQ).trans (by simp [Block.flagEQ])

@[simp] theorem complete_flagLT :
    (complete i w b).flagLT = if writesCompare i = true then w.order == .lt else b.flagLT := 
  (statusAfter_getLsbD i w b.status bitLT).trans (by simp [Block.flagLT])

@[simp] theorem complete_flagT : (complete i w b).flagT = if writesT i = true then w.t else b.flagT := 
  (statusAfter_getLsbD i w b.status bitT).trans (by simp [Block.flagT])

@[simp] theorem complete_flagF : (complete i w b).flagF = b.flagF := 
  (statusAfter_getLsbD i w b.status bitF).trans (by simp [Block.flagF])

@[simp] theorem complete_reserved : (complete i w b).status &&& reservedStatus = b.status &&& reservedStatus := by
  show statusAfter i w b.status &&& reservedStatus = _
  unfold statusAfter
  rw [putBitIf_and_reserved _ _ _ _ (by decide), putBitIf_and_reserved _ _ _ _ (by decide),
    putBitIf_and_reserved _ _ _ _ (by decide), putBitIf_and_reserved _ _ _ _ (by decide)]

end Complete

theorem faultEntry_reserved (k : Cause) (cmd : Word) (b : Block) :
    (b.faultEntry k cmd).status &&& reservedStatus = b.status &&& reservedStatus :=
  putBit_and_mask b.status true (by decide) (by decide)

/-! ### Two blocks that agree on a command's operands -/

/-- The two blocks agree on what the tables say command `i` reads (R22, R26, R28, R30). -/
structure AgreeOnReads (i : Instr) (b₁ b₂ : Block) : Prop where
  x : ∀ r ∈ readsX i, b₁.readX r = b₂.readX r
  v : ∀ r ∈ readsV i, b₁.readV r = b₂.readV r
  c : readsC i = true → b₁.flagC = b₂.flagC
  ov : readsOV i = true → b₁.ov = b₂.ov

theorem AgreeOnReads.refl (i : Instr) (b : Block) : AgreeOnReads i b b :=
  ⟨fun _ _ => rfl, fun _ _ => rfl, fun _ => rfl, fun _ => rfl⟩

/-- From `b₁` to `r₁` and from `b₂` to `r₂` command `i` does the same: it raises the same fault, one the table lists for it
(R286), or it completes with the same values. -/
def Alike (i : Instr) (b₁ b₂ r₁ r₂ : Block) : Prop :=
  (∃ k ∈ mayRaise i, r₁ = b₁.faultEntry k (encode i) ∧ r₂ = b₂.faultEntry k (encode i)) ∨
    ∃ w, r₁ = complete i w b₁ ∧ r₂ = complete i w b₂

section Alike

variable {i : Instr} {b₁ b₂ r₁ r₂ q₁ q₂ : Block}

theorem alike_raise (k : Cause) (hk : k ∈ mayRaise i := by simp [mayRaise]) :
    Alike i b₁ b₂ (raise i k b₁) (raise i k b₂) :=
  .inl ⟨k, hk, rfl, rfl⟩

theorem alike_complete (w : Results) : Alike i b₁ b₂ (complete i w b₁) (complete i w b₂) :=
  .inr ⟨w, rfl, rfl⟩

theorem alike_ite (p : Prop) [Decidable p] (hr : Alike i b₁ b₂ r₁ r₂) (hq : Alike i b₁ b₂ q₁ q₂) :
    Alike i b₁ b₂ (if p then r₁ else q₁) (if p then r₂ else q₂) := by
  split
  · exact hr
  · exact hq

end Alike

/-- Zero operands of VLAL and VRAL: the register left alone counts as written with what it held. -/
theorem writeX_eq_writeV_self (b : Block) (xd : XReg) (vd : VReg) (l : Limb) :
    b.writeX xd l = (b.writeV vd (b.readV vd)).writeX xd l := by
  rw [writeV_self]

/-- Every command reads only its operands and writes only its destinations, or raises one of its faults. -/
theorem exec_alike (cap : Nat) (i : Instr) {b₁ b₂ : Block} (h : AgreeOnReads i b₁ b₂) :
    Alike i b₁ b₂ (Block.exec cap i b₁) (Block.exec cap i b₂) := by
  obtain ⟨hx, hv, hc, hov⟩ := h
  cases i <;>
    simp only [readsX, readsV, readsC, readsOV, List.mem_cons, List.not_mem_nil, or_false, forall_eq_or_imp, forall_eq,
      IsEmpty.forall_iff, implies_true, forall_const, Bool.false_eq_true] at hx hv hc hov
  case ldi xd imm16 => exact alike_complete { x := _ }
  case ldih xd imm16 =>
    simp only [Block.exec, Block.ldih, hx]
    exact alike_complete { x := _ }
  case vset vd xs =>
    simp only [Block.exec, Block.vset, hx]
    exact alike_complete { v := _ }
  case vset64 vd xs xt =>
    simp only [Block.exec, Block.vset64, hx]
    exact alike_ite _ (alike_complete { v := _ }) (alike_complete { v := _ })
  case vmov vd vs =>
    simp only [Block.exec, Block.vmov, hv]
    exact alike_complete { v := _ }
  case vlen xd vs =>
    simp only [Block.exec, Block.vlen, hv]
    exact alike_complete { x := _ }
  case vgetl xd vs xs =>
    simp only [Block.exec, Block.vgetl, Block.countX, hx, hv]
    exact alike_ite _ (alike_complete { x := _ }) (alike_raise _)
  case vputl vd xs xt =>
    simp only [Block.exec, Block.vputl, Block.countX, hx, hv]
    exact alike_ite _ (alike_ite _ (alike_complete { v := _ }) (alike_raise _)) (alike_raise _)
  case vlal xd vd =>
    simp only [Block.exec, Block.vlal, hv]
    rw [writeX_eq_writeV_self b₁ xd vd, writeX_eq_writeV_self b₂ xd vd, hv]
    exact alike_ite _ (alike_complete { x := _, v := _ }) (alike_complete { x := _, v := _ })
  case vdiv xd vd vs xs =>
    simp only [Block.exec, Block.vdiv, Block.countX, hx, hv]
    exact alike_ite _ (alike_raise _) (alike_ite _ (alike_complete { x := _, v := _ })
      (alike_ite _ (alike_complete { x := _, v := _ }) (alike_raise _)))
  case mfov xd =>
    simp only [Block.exec, Block.mfov, hov]
    exact alike_complete { x := _ }
  case addl xd xs =>
    simp only [Block.exec, Block.addl, addLimbs, hx]
    exact alike_complete { x := _, c := _ }
  case adcl xd xs =>
    simp only [Block.exec, Block.adcl, addLimbs, hx, hc]
    exact alike_complete { x := _, c := _ }
  case vadd vd vs =>
    simp only [Block.exec, Block.vadd, commitV, hv]
    exact alike_ite _ (alike_complete { v := _ }) (alike_raise _)
  case vmul vd vs =>
    simp only [Block.exec, Block.vmul, commitV, hv]
    exact alike_ite _ (alike_complete { v := _ }) (alike_raise _)
  case vadds vd xs =>
    simp only [Block.exec, Block.vadds, commitV, hx, hv]
    exact alike_ite _ (alike_complete { v := _ }) (alike_raise _)
  case vmuls vd xs =>
    simp only [Block.exec, Block.vmuls, commitV, hx, hv]
    exact alike_ite _ (alike_complete { v := _ }) (alike_raise _)
  case vsub vd vs =>
    simp only [Block.exec, Block.vsub, hv]
    exact alike_complete { v := _ }
  case mull xd xs =>
    simp only [Block.exec, Block.mull, hx]
    exact alike_complete { x := _, ov := _ }
  case shll xd xs =>
    simp only [Block.exec, Block.shll, shiftLimbLeft, Block.countX, hx]
    exact alike_ite _ (alike_complete { x := _, ov := _ }) (alike_raise _)
  case shllo xd xs =>
    simp only [Block.exec, Block.shllo, shiftLimbLeft, Block.countX, hx, hov]
    exact alike_ite _ (alike_complete { x := _, ov := _ }) (alike_raise _)
  case shrl xd xs =>
    simp only [Block.exec, Block.shrl, Block.countX, hx]
    exact alike_ite _ (alike_complete { x := _ }) (alike_raise _)
  case shrnl xd xs xt =>
    simp only [Block.exec, Block.shrnl, Block.countX, hx]
    exact alike_ite _ (alike_complete { x := _ }) (alike_raise _)
  case vshl vd xs =>
    simp only [Block.exec, Block.vshl, Block.countX, hx, hv]
    exact alike_ite _ (alike_complete { v := _ }) (alike_ite _ (alike_complete { v := _ }) (alike_raise _))
  case vshr vd xs =>
    simp only [Block.exec, Block.vshr, Block.countX, hx, hv]
    exact alike_complete { v := _ }
  case vclrb vd xs =>
    simp only [Block.exec, Block.vclrb, Block.countX, hx, hv]
    exact alike_complete { v := _ }
  case vinv vd xs =>
    simp only [Block.exec, Block.vinv, Block.countX, hx, hv]
    exact alike_ite _ (alike_complete { v := _ }) (alike_raise _)
  case vsetb vd xs =>
    simp only [Block.exec, Block.vsetb, Block.countX, hx, hv]
    exact alike_ite _ (alike_complete { v := _ }) (alike_raise _)
  case vtstb vs xs =>
    simp only [Block.exec, Block.vtstb, Block.countX, hx, hv]
    exact alike_complete { t := _ }
  case ctzl xd xs =>
    simp only [Block.exec, Block.ctzl, hx]
    exact alike_ite _ (alike_raise _) (alike_complete { x := _ })
  case log2l xd xs =>
    simp only [Block.exec, Block.log2l, hx]
    exact alike_ite _ (alike_raise _) (alike_complete { x := _ })
  case vlog2 xd vs =>
    simp only [Block.exec, Block.vlog2, hv]
    exact alike_ite _ (alike_raise _) (alike_complete { x := _ })
  case cmpl xs xt =>
    simp only [Block.exec, Block.cmpl, hx]
    exact alike_complete { order := _ }
  case vcmp vd vs =>
    simp only [Block.exec, Block.vcmp, hv]
    exact alike_complete { order := _ }
  case vral xd vd =>
    simp only [Block.exec, Block.vral, hv]
    rw [writeX_eq_writeV_self b₁ xd vd, writeX_eq_writeV_self b₂ xd vd, hv]
    exact alike_ite _ (alike_complete { x := _, v := _ }) (alike_complete { x := _, v := _ })

/-- What a command can do to one block. -/
theorem block_exec_cases (cap : Nat) (i : Instr) (b : Block) :
    (∃ k ∈ mayRaise i, Block.exec cap i b = b.faultEntry k (encode i)) ∨ ∃ w, Block.exec cap i b = complete i w b := by
  obtain ⟨k, hk, h, -⟩ | ⟨w, h, -⟩ := exec_alike cap i (AgreeOnReads.refl i b)
  · exact .inl ⟨k, hk, h⟩
  · exact .inr ⟨w, h⟩

/-- What a command can answer: fault entry with one of its faults, or the values `w` written to its destinations. -/
theorem exec_cases {i : Instr} {s t : State} (h : exec i s = .next t) :
    (∃ k ∈ mayRaise i, t = faultEntry k (encode i) s) ∨ ∃ w, t = s.withBlock (complete i w s.toBlock) := by
  rw [exec_eq_withBlock] at h
  rw [← Host.Outcome.next.inj h]
  obtain ⟨k, hk, hb⟩ | ⟨w, hb⟩ := block_exec_cases s.cap i s.toBlock
  · exact .inl ⟨k, hk, by rw [hb]; rfl⟩
  · exact .inr ⟨w, by rw [hb]⟩

/-! ### What a command may write and read -/

/-- Settles O17: fault entry writes no scalar register, completion only the table's. -/
theorem scalarWritesFollowTheTable : Obligations.ScalarWritesFollowTheTable := by
  intro i s t r h hw
  obtain ⟨k, -, rfl⟩ | ⟨w, rfl⟩ := exec_cases h
  · exact block_faultEntry_readX s.toBlock k _ r
  · exact complete_readX_of_ne w s.toBlock hw

/-- Settles O18: fault entry writes no BigNat register, completion only the table's. -/
theorem bigNatWritesFollowTheTable : Obligations.BigNatWritesFollowTheTable := by
  intro i s t r h hw
  obtain ⟨k, -, rfl⟩ | ⟨w, rfl⟩ := exec_cases h
  · exact block_faultEntry_readV s.toBlock k _ r
  · exact complete_readV_of_ne w s.toBlock hw

/-- Settles O19: fault entry puts F alone, completion the bits of the tables alone. -/
theorem flagAndOverflowWriters : Obligations.FlagAndOverflowWriters := by
  intro i s t h
  obtain ⟨k, -, rfl⟩ | ⟨w, rfl⟩ := exec_cases h
  · exact ⟨fun _ => block_faultEntry_ov s.toBlock k _, fun _ => block_faultEntry_flagC s.toBlock k _,
      fun _ => ⟨block_faultEntry_flagEQ s.toBlock k _, block_faultEntry_flagLT s.toBlock k _⟩,
      fun _ => block_faultEntry_flagT s.toBlock k _, faultEntry_reserved k _ s.toBlock⟩
  · refine ⟨fun hw => ?_, fun hw => ?_, fun hw => ⟨?_, ?_⟩, fun hw => ?_, complete_reserved w s.toBlock⟩ <;>
      simp [hw]

/-- Settles O21: two blocks that agree on the operands are taken alike, so both fault with one record or both receive the
same values. -/
theorem commandReadsOnlyItsOperands : Obligations.CommandReadsOnlyItsOperands := by
  intro i s₁ s₂ t₁ t₂ hf₁ hf₂ hcap hx hv hc hov h₁ h₂
  rw [exec_eq_withBlock] at h₁ h₂
  rw [← Host.Outcome.next.inj h₁, ← Host.Outcome.next.inj h₂, ← hcap]
  simp only [withBlock_toBlock]
  have hagree : AgreeOnReads i s₁.toBlock s₂.toBlock := ⟨hx, hv, hc, hov⟩
  obtain ⟨k, -, hb₁, hb₂⟩ | ⟨w, hb₁, hb₂⟩ := exec_alike s₁.cap i hagree
  · rw [hb₁, hb₂]
    simp
  · rw [hb₁, hb₂]
    refine ⟨by simp [hf₁, hf₂], fun hf => ?_, fun _ => ⟨fun r hr => ?_, fun r hr => ?_, ?_⟩⟩
    · rw [complete_flagF, hf₁] at hf
      cases hf
    · rw [complete_readX_dest w _ hr, complete_readX_dest w _ hr]
    · rw [complete_readV_dest w _ hr, complete_readV_dest w _ hr]
    · refine ⟨fun hw => ?_, fun hw => ?_, fun hw => ⟨?_, ?_⟩, fun hw => ?_⟩ <;> simp [hw]

/-! ### The compares, and legal registers (R24) -/

theorem compare_beq_eq (a b : Nat) : (compare a b == .eq) = decide (a = b) := by
  rw [Bool.eq_iff_iff, beq_iff_eq, compare_eq_iff_eq, decide_eq_true_iff]

theorem compare_beq_lt (a b : Nat) : (compare a b == .lt) = decide (a < b) := by
  rw [Bool.eq_iff_iff, beq_iff_eq, compare_lt_iff_lt, decide_eq_true_iff]

/-- Writing the outcome of comparing two natural numbers puts EQ to their equality and LT to their order (R31). -/
theorem setCompare_compare (b : Block) (m n : Nat) :
    b.setCompare (compare m n) =
      { b with status := putBit (putBit b.status bitEQ (decide (m = n))) bitLT (decide (m < n)) } := by
  rw [Block.setCompare, compare_beq_eq, compare_beq_lt]

/-- The register keeps R24: reduced, not empty, at most CAP limbs. -/
def LegalReg (cap : Nat) (L : List Limb) : Prop := reducedForm L = true ∧ L.length ≤ cap

theorem wfV_iff (s : State) (r : VReg) : s.wfV r = true ↔ LegalReg s.cap (s.readV r) := by
  simp [State.wfV, LegalReg]

/-- Settles O47: the unit's order of two limbs is the order of the values by definition, that of two legal sequences by
R212. -/
theorem cmplAndVcmpSetFlags : Obligations.CmplAndVcmpSetFlags := by
  constructor
  · intro xs xt s
    rw [exec_eq_withBlock, Block.exec, Block.cmpl, cmp32_eq, setCompare_compare]
    rfl
  · intro vd vs s hd hs
    obtain ⟨hrd, -⟩ := (wfV_iff s vd).mp hd
    obtain ⟨hrs, -⟩ := (wfV_iff s vs).mp hs
    rw [exec_eq_withBlock, Block.exec, Block.vcmp, cmp_eq hrd hrs, setCompare_compare]
    rfl

/-! ### Reset and Observe -/

/-- Settles O10: the values of R40, each read of the registers by its law. -/
theorem resetStateValues : Obligations.ResetStateValues :=
  ⟨reset_readX, reset_readV, rfl, rfl, rfl, rfl, rfl, rfl, rfl, rfl, rfl⟩

theorem observe_scalar (b : Block) (i : Fin 8) : b.observe i.val = b.readX i := by
  have hi : i.val < 0x08 := i.isLt
  rw [Block.observe, if_pos hi, Fin.ofNat_val_eq_self]

theorem observe_length (b : Block) (i : Fin 8) : b.observe (0x20 + i.val) = BitVec.ofNat 32 (b.readV i).length := by
  have hi : i.val < 8 := i.isLt
  rw [Block.observe, if_neg (by omega), if_neg (by omega), if_neg (by omega), if_neg (by omega), if_neg (by omega),
    if_pos (by omega), Nat.add_sub_cancel_left, Fin.ofNat_val_eq_self]
  rfl

theorem observeLimb_register (b : Block) (i : Fin 8) (j : Nat) :
    b.observeLimb (0x40 + i.val) j = (b.readV i).getD j 0#32 := by
  have hi : i.val < 8 := i.isLt
  rw [Block.observeLimb, if_pos (by omega), Nat.add_sub_cancel_left, Fin.ofNat_val_eq_self]

/-- The selectors between and above the ranges of R42 return 0. -/
theorem observe_other (b : Block) {n : Nat} (h8 : 8 ≤ n) (hs : n < 0x10 ∨ 0x14 ≤ n) (hl : n < 0x20 ∨ 0x28 ≤ n) :
    b.observe n = 0#32 := by
  rw [Block.observe, if_neg (by omega), if_neg (by omega), if_neg (by omega), if_neg (by omega), if_neg (by omega),
    if_neg (by omega)]

theorem step_of_observe {s : State} {n : Nat} {rest : List Transaction} (h : s.pending = .observe n :: rest) :
    step s = .next { s with pending := rest, reply := some (s.observe n) } := by
  rw [step, nextTransaction, h]
  rfl

theorem step_of_observeLimb {s : State} {n j : Nat} {rest : List Transaction}
    (h : s.pending = .observeLimb n j :: rest) :
    step s = .next { s with pending := rest, reply := some (s.observeLimb n j) } := by
  rw [step, nextTransaction, h]
  rfl

/-- Settles O11: the table of R42 selector by selector, and the two Observe transactions. -/
theorem observeReturnsTheTable : Obligations.ObserveReturnsTheTable := by
  intro s
  refine ⟨observe_scalar s.toBlock, rfl, rfl, rfl, rfl, observe_length s.toBlock, fun i j h => ?_, fun i j h => ?_,
    fun n hn => observe_other s.toBlock (by omega) (by omega) (by omega), fun n rest h => step_of_observe h,
    fun n j rest h => step_of_observeLimb h⟩
  · rw [observeLimb_register, List.getD_eq_getElem _ _ h]
  · rw [observeLimb_register, List.getD_eq_default _ _ h]

end Sys2Proof.Proofs.StateFamily
end

section
/-! PROOFS of the family 10_state.md, the invariant. What a command writes to a BigNat register keeps R24: most results are
`limbs` of a value below `2^(32 * CAP)` or pass the capacity test, so the bounds are bounds on values. The divider's result
needs its loops: one inner loop is a division with remainder (R225). -/

namespace Sys2Proof.Proofs.LegalStates

open Sys2Proof Sys2Proof.Machine Sys2Proof.Proofs.Scope Sys2Proof.Proofs.StateFamily

/-! ### The divider's loops -/

/-- `2^i` and a number below it share no bit. -/
theorem two_pow_or_of_lt {q i : Nat} (h : q < 2 ^ i) : 2 ^ i ||| q = 2 ^ i + q := by
  simpa using (Nat.two_pow_add_eq_or_of_lt h 1).symm

/-- One pass of R225 finds the greatest `den * 2^i` that `self` holds. -/
theorem strideSearch_spec {self den : Nat} (hd : 0 < den) (h : den ≤ self) :
    ∃ i, strideSearch self den = (i, den * 2 ^ i) ∧ den * 2 ^ i ≤ self ∧ self < 2 * (den * 2 ^ i) := by
  by_cases h1 : den * 2 ≤ self
  · have hden1 : den * 2 ≠ 0 := by omega
    have hself : self ≠ 0 := by omega
    obtain ⟨i, hi⟩ : ∃ i, i = Nat.log2 self - Nat.log2 (den * 2) := ⟨_, rfl⟩
    have hlog : Nat.log2 self = Nat.log2 (den * 2) + i := by
      have : Nat.log2 (den * 2) ≤ Nat.log2 self := (Nat.le_log2 hself).mpr ((Nat.log2_self_le hden1).trans h1)
      omega
    have hlow : 2 ^ Nat.log2 self ≤ den * 2 * 2 ^ i := by
      rw [hlog, pow_add]
      exact Nat.mul_le_mul_right _ (Nat.log2_self_le hden1)
    have hhigh : den * 2 * 2 ^ i < 2 * 2 ^ Nat.log2 self := by
      rw [hlog, pow_add, ← mul_assoc, ← pow_succ']
      exact Nat.mul_lt_mul_of_pos_right Nat.lt_log2_self (by positivity)
    have hs1 := Nat.log2_self_le hself
    have hs2 : self < 2 * 2 ^ Nat.log2 self := by rw [← pow_succ']; exact Nat.lt_log2_self
    have hdouble : den * 2 * 2 ^ i = 2 * (den * 2 ^ i) := by ring
    by_cases h2 : den * 2 * 2 ^ i ≤ self
    · have hmoved : den * 2 ^ (i + 1) = den * 2 * 2 ^ i := by ring
      refine ⟨i + 1, ?_, by omega, by omega⟩
      simp only [strideSearch, ge_iff_le, h1, ← hi, h2, if_true, hmoved]
      rw [Nat.mul_div_cancel _ (by norm_num)]
    · refine ⟨i, ?_, by omega, by omega⟩
      simp only [strideSearch, ge_iff_le, h1, ← hi, h2, if_true, if_false]
      rw [hdouble, Nat.mul_div_cancel_left _ (by norm_num)]
  · refine ⟨0, ?_, by simpa using h, by omega⟩
    simp only [strideSearch, ge_iff_le, h1, if_false]
    simp

/-- The inner loop divides with remainder (R225): `self mod den` stays, and the quotient is put into the result. -/
theorem divInner_eq {fuel self den : Nat} (result : Nat) (hd : 0 < den) (hf : bitlen self ≤ fuel) :
    divInner fuel self den result = (self % den, den, result ||| self / den) := by
  rw [bitlen_le_iff] at hf
  induction fuel generalizing self result with
  | zero =>
    have h0 : self = 0 := by simpa using hf
    simp [divInner, h0]
  | succ fuel ih =>
    rw [divInner]
    by_cases h : den ≤ self
    · obtain ⟨i, hstride, hle, hlt⟩ := strideSearch_spec hd h
      have hfuel : self - den * 2 ^ i < 2 ^ fuel := by rw [pow_succ] at hf; omega
      have hquot : self / den = 2 ^ i + (self - den * 2 ^ i) / den := by
        rw [Nat.sub_mul_div, Nat.add_sub_cancel']
        rwa [Nat.le_div_iff_mul_le hd, Nat.mul_comm]
      have hrest : (self - den * 2 ^ i) / den < 2 ^ i := Nat.div_lt_of_lt_mul (by omega)
      rw [if_pos h, hstride]
      simp only
      rw [Nat.mul_div_cancel _ (by positivity), ih _ hfuel, hquot, Nat.lor_assoc, two_pow_or_of_lt hrest,
        Nat.sub_mul_mod hle]
    · rw [if_neg h, Nat.mod_eq_of_lt (by omega), Nat.div_eq_of_lt (by omega), Nat.or_zero]

/-- A width that holds `self`, twice `den` and the result so far holds the result of the outer loop (R229). -/
theorem divOuter_lt {self den result N : Nat} (n : Nat) (hd : 0 < den) (hself : self < 2 ^ N) (hden : 2 * den ≤ 2 ^ N)
    (hresult : result < 2 ^ N) : divOuter n self den result < 2 ^ N := by
  induction n generalizing self result with
  | zero => exact hresult
  | succ n ih =>
    rw [divOuter, divInner_eq result hd le_rfl]
    split
    · exact hresult
    · have hrem := Nat.mod_lt self hd
      have hquot := Nat.div_le_self self den
      exact ih (by omega) (Nat.or_lt_two_pow hresult (by omega))

/-- The divider's result fits the width of its widest working value (R229). -/
theorem fracDiv_lt (n acc : Nat) {d : Nat} (hd : 0 < d) : fracDiv n d acc < 2 ^ divWidth n d acc := by
  have hnum : n * 2 ^ acc < 2 ^ (bitlen n + acc) := by
    rw [pow_add]
    exact Nat.mul_lt_mul_of_pos_right (lt_two_pow_bitlen n) (by positivity)
  have hnumW : 2 ^ (bitlen n + acc) ≤ 2 ^ divWidth n d acc :=
    Nat.pow_le_pow_right (by norm_num) (by rw [divWidth]; omega)
  have hdenW : 2 ^ (bitlen d + 1) ≤ 2 ^ divWidth n d acc :=
    Nat.pow_le_pow_right (by norm_num) (by rw [divWidth]; omega)
  have hden := lt_two_pow_bitlen d
  rw [pow_succ] at hdenW
  exact divOuter_lt (acc + 1) hd (by omega) (by omega) (by positivity)

/-! ### Legal registers by value -/

theorem fitsBits_iff (cap n : Nat) : fitsBits cap n = true ↔ n ≤ 32 * cap := by simp [fitsBits]

theorem val_lt_of_legalReg {cap : Nat} {L : List Limb} (h : LegalReg cap L) : val L < 2 ^ (32 * cap) :=
  (val_lt L).trans_le (Nat.pow_le_pow_right (by norm_num) (Nat.mul_le_mul_left 32 h.2))

/-- `limbs(n)` is legal when `n` is below `2^(32 * CAP)` (R12, R285). -/
theorem legalReg_limbs {cap n : Nat} (hcap : 0 < cap) (h : n < 2 ^ (32 * cap)) : LegalReg cap (limbs n) :=
  ⟨reducedForm_limbs n, (length_limbs_le_iff n hcap).mpr ((bitlen_le_iff n _).mpr h)⟩

/-- `limbs(n)` is legal when a legal register holds `n` or more. -/
theorem legalReg_limbs_of_le {cap n : Nat} {L : List Limb} (hcap : 0 < cap) (hL : LegalReg cap L) (h : n ≤ val L) :
    LegalReg cap (limbs n) :=
  legalReg_limbs hcap (h.trans_lt (val_lt_of_legalReg hL))

theorem legalReg_single {cap : Nat} (hcap : 0 < cap) (l : Limb) : LegalReg cap [l] :=
  ⟨reducedForm_single l, hcap⟩

/-- VSET64 with a high limb that is not zero (R114). -/
theorem legalReg_pair {cap : Nat} (hcap : 2 ≤ cap) (l : Limb) {h : Limb} (hh : h ≠ 0#32) : LegalReg cap [l, h] :=
  ⟨by simpa [reducedForm] using hh, hcap⟩

/-- VSUB: the absolute difference is no more than the larger operand (R136). -/
theorem legalReg_absDiff {cap : Nat} {A B : List Limb} (hcap : 0 < cap) (hA : LegalReg cap A) (hB : LegalReg cap B) :
    LegalReg cap (absDiff A B) := by
  have hAlt := val_lt_of_legalReg hA
  have hBlt := val_lt_of_legalReg hB
  rw [absDiff_eq hA.1 hB.1]
  exact legalReg_limbs hcap (by omega)

/-- VSHL: a width and a count that fit together (R285). -/
theorem legalReg_shl {cap k : Nat} (hcap : 0 < cap) (L : List Limb) (h : bitlen (val L) + k ≤ 32 * cap) :
    LegalReg cap (shl L k) := by
  rw [shl_eq]
  refine legalReg_limbs hcap (lt_of_lt_of_le ?_ (Nat.pow_le_pow_right (by norm_num) h))
  rw [pow_add]
  exact Nat.mul_lt_mul_of_pos_right (lt_two_pow_bitlen _) (by positivity)

/-- VSHR: a shift right makes no value larger (R171). -/
theorem legalReg_shr {cap : Nat} {L M : List Limb} (hcap : 0 < cap) (hL : LegalReg cap L) (h : val M ≤ val L) (k : Nat) :
    LegalReg cap (shr M k) := by
  rw [shr_eq]
  exact legalReg_limbs_of_le hcap hL ((Nat.div_le_self _ _).trans h)

/-- VINV: a window that fits (R285). -/
theorem legalReg_inv {cap k : Nat} {L : List Limb} (hcap : 0 < cap) (hL : LegalReg cap L) (h : k ≤ 32 * cap) :
    LegalReg cap (inv L k) := by
  have hpow : 2 ^ k ≤ 2 ^ (32 * cap) := Nat.pow_le_pow_right (by norm_num) h
  have hpos : 0 < 2 ^ k := by positivity
  rw [inv_eq]
  exact legalReg_limbs hcap (Nat.xor_lt_two_pow (val_lt_of_legalReg hL) (by omega))

/-- VSETB: the limbs added for a bit above the register end in the limb that holds the bit, so the result needs no
reduce (R173). -/
theorem reducedForm_setBit {L : List Limb} (hL : reducedForm L = true) (i : Nat) : reducedForm (setBit L i) = true := by
  have hlen := length_setBit L i
  have hval : val (setBit L i) = val L ||| 2 ^ i := val_setBit L i
  refine reducedForm_of_le_val (List.length_pos_iff.mp (by omega)) ?_
  rw [hval, hlen]
  by_cases hi : L.length ≤ i / 32 + 1
  · rw [max_eq_right hi]
    exact (Nat.pow_le_pow_right (by norm_num) (by omega)).trans Nat.right_le_or
  · rw [max_eq_left (by omega)]
    exact (le_val_of_reducedForm hL (by omega)).trans Nat.left_le_or

theorem legalReg_setBit {cap i : Nat} {L : List Limb} (hL : LegalReg cap L) (h : i + 1 ≤ 32 * cap) :
    LegalReg cap (setBit L i) := by
  obtain ⟨hr, hlen⟩ := hL
  refine ⟨reducedForm_setBit hr i, ?_⟩
  rw [length_setBit]
  omega

/-- VCLRB: clearing a bit makes no value larger (R174). -/
theorem legalReg_clearBit {cap : Nat} {L : List Limb} (hcap : 0 < cap) (hL : LegalReg cap L) (i : Nat) :
    LegalReg cap (clearBit L i) := by
  rw [clearBit_eq hL.1]
  refine legalReg_limbs_of_le hcap hL ?_
  split
  · exact Nat.sub_le _ _
  · exact le_rfl

/-- VLAL: the amount fills the last limb and no more (R198, C1). -/
theorem bitlen_add_leftAlignAmount_le {L : List Limb} (hr : reducedForm L = true) (hz : val L ≠ 0) :
    bitlen (val L) + leftAlignAmount L ≤ 32 * L.length := by
  have hpos : 0 < L.length := List.length_pos_iff.mpr ((reducedForm_iff L).mp hr).1
  have hbits : bitlen (val L) = seqLog2 L + 1 := by rw [bitlen_eq_log2 hz, seqLog2_eq hr hz]
  have hle : bitlen (val L) ≤ 32 * L.length := (bitlen_le_iff _ _).mpr (val_lt L)
  have hge : (L.length - 1) * 32 ≤ seqLog2 L := Nat.le_add_right _ _
  rw [leftAlignAmount]
  omega

/-- VRAL: dropping low limbs of 0 makes no value larger (R199). -/
theorem val_dropLowZeros_le (L : List Limb) : val (dropLowZeros L) ≤ val L := by
  induction L with
  | nil => exact le_rfl
  | cons l L ih =>
    rw [dropLowZeros, List.dropWhile_cons]
    split
    · have hcons := val_cons l L
      rw [dropLowZeros] at ih
      omega
    · exact le_rfl

/-- VDIV: the capacity test on the working width covers the result (R229). -/
theorem legalReg_fracDiv {cap n d acc : Nat} (hcap : 0 < cap) (hd : 0 < d) (h : divWidth n d acc ≤ 32 * cap) :
    LegalReg cap (limbs (fracDiv n d acc)) :=
  legalReg_limbs hcap ((fracDiv_lt n acc hd).trans_le (Nat.pow_le_pow_right (by norm_num) h))

/-! ### Every command keeps the BigNat registers legal -/

/-- Every BigNat register of the block keeps R24. -/
def LegalRegs (cap : Nat) (b : Block) : Prop := ∀ r : VReg, LegalReg cap (b.readV r)

theorem legalRegs_writeV {cap : Nat} {b : Block} {L : List Limb} (hb : LegalRegs cap b) (vd : VReg)
    (hL : LegalReg cap L) : LegalRegs cap (b.writeV vd L) := by
  intro r
  rw [writeV_readV]
  split
  · exact hL
  · exact hb r

theorem legalRegs_writeX {cap : Nat} {b : Block} (hb : LegalRegs cap b) (xd : XReg) (l : Limb) :
    LegalRegs cap (b.writeX xd l) := hb

theorem legalRegs_raise {cap : Nat} {b : Block} (hb : LegalRegs cap b) (i : Instr) (k : Cause) :
    LegalRegs cap (raise i k b) := hb

/-- The capacity test guards every reduced result (R285). -/
theorem legalRegs_commitV {cap : Nat} {b : Block} {R : List Limb} (hb : LegalRegs cap b) (i : Instr) (vd : VReg)
    (hR : reducedForm R = true) : LegalRegs cap (commitV cap i vd R b) := by
  obtain ⟨hfits, h⟩ | ⟨-, h⟩ := commitV_cases cap i vd R b
  · rw [h]
    exact legalRegs_writeV hb vd ⟨hR, hfits⟩
  · rw [h]
    exact hb

theorem exec_legalRegs_of_writesV_none {cap : Nat} {i : Instr} {b : Block} (hb : LegalRegs cap b)
    (hw : writesV i = none) : LegalRegs cap (Block.exec cap i b) := by
  intro r
  obtain ⟨k, -, h⟩ | ⟨w, h⟩ := block_exec_cases cap i b
  · rw [h]
    exact hb r
  · rw [h, complete_readV_of_ne w b (by simp [hw])]
    exact hb r

/-- Every command keeps the BigNat registers legal: what it writes there is a legal register. -/
theorem exec_legalRegs {cap : Nat} (hcap : 2 ≤ cap) (i : Instr) {b : Block} (hb : LegalRegs cap b) :
    LegalRegs cap (Block.exec cap i b) := by
  have hpos : 0 < cap := by omega
  cases i with
  | vset vd xs => exact legalRegs_writeV hb vd (legalReg_single hpos _)
  | vset64 vd xs xt =>
    rw [Block.exec, Block.vset64]
    split
    next => exact legalRegs_writeV hb vd (legalReg_single hpos _)
    next h => exact legalRegs_writeV hb vd (legalReg_pair hcap _ h)
  | vmov vd vs => exact legalRegs_writeV hb vd (hb vs)
  | vputl vd xs xt =>
    rw [Block.exec, Block.vputl]
    split
    next => exact legalRegs_commitV hb _ vd (reducedForm_reduce _)
    next => exact legalRegs_raise hb _ _
  | vadd vd vs => exact legalRegs_commitV hb _ vd (reducedForm_reduce _)
  | vadds vd xs => exact legalRegs_commitV hb _ vd (reducedForm_reduce _)
  | vsub vd vs => exact legalRegs_writeV hb vd (legalReg_absDiff hpos (hb vd) (hb vs))
  | vmul vd vs => exact legalRegs_commitV hb _ vd (by rw [shiftAddMul_eq]; exact reducedForm_limbs _)
  | vmuls vd xs => exact legalRegs_commitV hb _ vd (by rw [shiftAddMul_eq]; exact reducedForm_limbs _)
  | vshl vd xs =>
    rw [Block.exec, Block.vshl]
    split
    next => exact legalRegs_writeV hb vd (legalReg_single hpos _)
    next =>
      split
      next h => exact legalRegs_writeV hb vd (legalReg_shl hpos _ ((fitsBits_iff _ _).mp h))
      next => exact legalRegs_raise hb _ _
  | vshr vd xs => exact legalRegs_writeV hb vd (legalReg_shr hpos (hb vd) le_rfl _)
  | vinv vd xs =>
    rw [Block.exec, Block.vinv]
    split
    next h => exact legalRegs_writeV hb vd (legalReg_inv hpos (hb vd) ((fitsBits_iff _ _).mp h))
    next => exact legalRegs_raise hb _ _
  | vsetb vd xs =>
    rw [Block.exec, Block.vsetb]
    split
    next h => exact legalRegs_writeV hb vd (legalReg_setBit (hb vd) ((fitsBits_iff _ _).mp h))
    next => exact legalRegs_raise hb _ _
  | vclrb vd xs => exact legalRegs_writeV hb vd (legalReg_clearBit hpos (hb vd) _)
  | vlal xd vd =>
    rw [Block.exec, Block.vlal]
    split
    next => exact legalRegs_writeX hb xd _
    next hz =>
      obtain ⟨hr, hlen⟩ := hb vd
      have hwidth := bitlen_add_leftAlignAmount_le hr hz
      exact legalRegs_writeX (legalRegs_writeV hb vd (legalReg_shl hpos _ (by omega))) xd _
  | vral xd vd =>
    rw [Block.exec, Block.vral]
    split
    next => exact legalRegs_writeX hb xd _
    next =>
      exact legalRegs_writeX (legalRegs_writeV hb vd (legalReg_shr hpos (hb vd) (val_dropLowZeros_le _) _)) xd _
  | vdiv xd vd vs xs =>
    simp only [Block.exec, Block.vdiv]
    split
    next => exact legalRegs_raise hb _ _
    next hd =>
      split
      next => exact legalRegs_writeX (legalRegs_writeV hb vd (legalReg_single hpos _)) xd _
      next =>
        split
        next h =>
          have hQ := legalReg_fracDiv hpos (Nat.pos_of_ne_zero hd) ((fitsBits_iff _ _).mp h)
          exact legalRegs_writeX (legalRegs_writeV hb vd hQ) xd _
        next => exact legalRegs_raise hb _ _
  | _ => exact exec_legalRegs_of_writesV_none hb rfl

/-! ### The invariant -/

theorem wfSeqs_iff (s : State) : s.wfSeqs ↔ LegalRegs s.cap s.toBlock :=
  forall_congr' fun r => wfV_iff s r

/-- The invariant speaks of the block and of CAP; what the host asks and gets does not matter (R41). -/
theorem inv_of_toBlock_eq {s t : State} (hs : s.Inv) (hb : t.toBlock = s.toBlock) (hcap : t.cap = s.cap) : t.Inv := by
  obtain ⟨b, p⟩ := t
  subst hb
  obtain ⟨hc, hv, hst, hrec⟩ := hs
  rw [wfSeqs_iff] at hv
  refine ⟨?_, ?_, hst, hrec⟩
  · rw [State.capLegal, hcap]
    exact hc
  · rw [wfSeqs_iff, hcap]
    exact hv

/-- Reset gives a legal state from any state (R40, R310). -/
theorem inv_resetBlock {s : State} (hc : s.capLegal) : (resetBlock s).Inv := by
  have hstatus : State.reset.statusLegal := by decide
  have hrecord : State.reset.recordLegal := by decide
  refine ⟨hc, ?_, hstatus, hrecord⟩
  rw [wfSeqs_iff]
  intro r
  rw [resetBlock_toBlock, reset_readV]
  exact legalReg_single (lt_of_lt_of_le (by decide) hc.1) _

/-- Settles O13: the state after reset is what Reset makes of it, with the default CAP of R6. -/
theorem resetStateIsLegal : Obligations.ResetStateIsLegal := by
  have hc : State.reset.capLegal := by decide
  exact inv_resetBlock hc

theorem code_range (k : Cause) : 1 ≤ k.code.toNat ∧ k.code.toNat ≤ 5 := by
  cases k <;> decide

/-- Fault entry sets F with one of the codes and touches nothing else that the invariant names (R288). -/
theorem inv_faultEntry {s : State} (hs : s.Inv) (k : Cause) (cmd : Word) : (faultEntry k cmd s).Inv := by
  obtain ⟨hc, hv, ⟨hres, hcmp⟩, -⟩ := hs
  have hF : (faultEntry k cmd s).flagF = true := block_faultEntry_flagF s.toBlock k cmd
  refine ⟨hc, hv, ⟨?_, ?_⟩, ⟨fun h => ?_, fun _ => code_range k⟩⟩
  · exact (faultEntry_reserved k cmd s.toBlock).trans hres
  · rw [faultEntry_toBlock, block_faultEntry_flagEQ, block_faultEntry_flagLT]
    exact hcmp
  · rw [hF] at h
    cases h

/-- A completing command leaves EQ and LT as one outcome of a compare, or as they were (R31). -/
theorem complete_not_eq_and_lt {i : Instr} {b : Block} (w : Results) (hb : ¬ (b.flagEQ = true ∧ b.flagLT = true)) :
    ¬ ((complete i w b).flagEQ = true ∧ (complete i w b).flagLT = true) := by
  rw [complete_flagEQ, complete_flagLT]
  split
  · cases w.order <;> decide
  · exact hb

/-- Every command keeps the invariant. -/
theorem inv_exec {i : Instr} {s t : State} (hs : s.Inv) (h : exec i s = .next t) : t.Inv := by
  obtain ⟨k, -, rfl⟩ | ⟨w, ht⟩ := exec_cases h
  · exact inv_faultEntry hs k _
  · obtain ⟨hc, hv, ⟨hres, hcmp⟩, hclear, hset⟩ := hs
    rw [wfSeqs_iff] at hv
    have hregs : LegalRegs s.cap t.toBlock := by
      rw [exec_eq_withBlock] at h
      rw [← Host.Outcome.next.inj h]
      exact exec_legalRegs hc.1 i hv
    subst ht
    refine ⟨hc, (wfSeqs_iff _).mpr hregs, ⟨?_, complete_not_eq_and_lt w hcmp⟩, fun hf => ?_, fun hf => ?_⟩
    · exact (complete_reserved w s.toBlock).trans hres
    · exact hclear ((complete_flagF w s.toBlock).symm.trans hf)
    · exact hset ((complete_flagF w s.toBlock).symm.trans hf)

/-- Issue keeps the invariant in each branch of R291. -/
theorem inv_issue {cmd : Word} {s t : State} (hs : s.Inv) (h : issue cmd s = .next t) : t.Inv := by
  obtain ⟨-, rfl⟩ | ⟨-, -, rfl⟩ | ⟨-, i, -, hexec⟩ := issue_next h
  · exact hs
  · exact inv_faultEntry hs _ _
  · exact inv_exec hs hexec

/-- Settles O14: transaction by transaction (R296); Observe and the idle step leave the block, Issue and Reset keep the
invariant. -/
theorem stepKeepsLegalStates : Obligations.StepKeepsLegalStates := by
  intro s t hs h
  obtain ⟨-, rfl⟩ | ⟨cmd, rest, -, hissue⟩ | ⟨n, rest, -, rfl⟩ | ⟨n, j, rest, -, rfl⟩ | ⟨rest, -, rfl⟩ := step_next h
  · exact hs
  · have htaken : ({ s with pending := rest, reply := none } : State).Inv := inv_of_toBlock_eq hs rfl rfl
    exact inv_issue htaken hissue
  · exact inv_of_toBlock_eq hs rfl rfl
  · exact inv_of_toBlock_eq hs rfl rfl
  · exact inv_resetBlock hs.1

end Sys2Proof.Proofs.LegalStates
end

section
/-! PROOFS of the family 30_encoding.md. The decoder undoes the encoder because every field of an encoded word reads back
(R81, R82); the encoder undoes the decoder because a decoded word's unused fields are 0 (R83); and the decoder accepts what
the rows of R86 accept because a row's mask says which fields are unused (R87). -/

namespace Sys2Proof.Proofs.Encoding

open Sys2Proof Sys2Proof.Machine

/-! ### Decoding what was encoded -/

/-- Format I's check passes on every word of the format (R82). -/
theorem formatI_encodeI (op : BitVec 8) (xd : XReg) (imm16 : BitVec 16) (i : Instr) :
    formatI (encodeI op xd imm16) i = .command i := by
  simp [formatI]

/-- Format R's check passes on a word of the format whose unused register fields are 0 (R81, R87). -/
theorem formatR_encodeR (op : BitVec 8) (u : Uses) (xd xs xt : XReg) (vd vs : VReg) (i : Instr)
    (hxd : u.xd = true ∨ xd = 0) (hxs : u.xs = true ∨ xs = 0) (hxt : u.xt = true ∨ xt = 0)
    (hvd : u.vd = true ∨ vd = 0) (hvs : u.vs = true ∨ vs = 0) :
    formatR (encodeR op xd xs xt vd vs) u i = .command i := by
  simp [formatR, hxd, hxs, hxt, hvd, hvs]

/-- Settles O1: the opcode picks the command's own branch, its check passes, and every operand field reads back. -/
theorem decodeInvertsEncode : Obligations.DecodeInvertsEncode := by
  intro i
  cases i
  case ldi | ldih => simp [decode, encode, formatI_encodeI]
  all_goals simp [decode, encode, formatR_encodeR]

/-! ### Encoding what was decoded -/

theorem opcodeOf_eq_ofNat {w : Word} {n : Nat} (h : (opcodeOf w).toNat = n) : opcodeOf w = BitVec.ofNat 8 n := by
  rw [← h, BitVec.ofNat_toNat, BitVec.setWidth_eq]

/-- A word that format I's check lets through is put together again from its opcode and its fields. -/
theorem encode_of_formatI {w : Word} {i j : Instr} {n : Nat} (hop : (opcodeOf w).toNat = n)
    (h : formatI w j = .command i) (hj : encode j = encodeI (BitVec.ofNat 8 n) (xdOf w) (imm16Of w)) : encode i = w := by
  obtain ⟨rfl, hz⟩ := formatI_command w j i h
  rw [hj, ← opcodeOf_eq_ofNat hop, encodeI_fields w hz]

/-- The field of format R that a command's word carries: what the word holds where the command uses it, else 0. -/
def usedField (used : Bool) (r : Fin 8) : Fin 8 := bif used then r else 0

theorem usedField_eq {used : Bool} {r : Fin 8} (h : used = true ∨ r = 0) : usedField used r = r := by
  rcases h with rfl | rfl
  · rfl
  · cases used <;> rfl

/-- A word that format R's check lets through is put together again from its opcode and the fields its command uses: the
others are 0. -/
theorem encode_of_formatR {w : Word} {u : Uses} {i j : Instr} {n : Nat} (hop : (opcodeOf w).toNat = n)
    (h : formatR w u j = .command i)
    (hj : encode j = encodeR (BitVec.ofNat 8 n) (usedField u.xd (xdOf w)) (usedField u.xs (xsOf w))
      (usedField u.xt (xtOf w)) (usedField u.vd (vdOf w)) (usedField u.vs (vsOf w))) : encode i = w := by
  obtain ⟨rfl, hz, hxd, hxs, hxt, hvd, hvs⟩ := formatR_command w u j i h
  rw [hj, ← opcodeOf_eq_ofNat hop, usedField_eq hxd, usedField_eq hxs, usedField_eq hxt, usedField_eq hvd,
    usedField_eq hvs, encodeR_fields w hz]

/-- Settles O2: branch by branch of the decoder, the command's word has the branch's opcode and carries every field that is
not forced to 0. -/
theorem encodeInvertsDecode : Obligations.EncodeInvertsDecode := by
  intro w i h
  unfold decode at h
  split at h
  case h_1 hop | h_2 hop => exact encode_of_formatI hop h rfl
  case h_36 => cases h
  all_goals exact encode_of_formatR ‹(opcodeOf w).toNat = _› h rfl

/-! ### The rows of the opcode map -/

theorem accepts_iff (r : Row) (w : Word) : r.accepts w = true ↔ w &&& r.mask = r.matchBits := by
  rw [Row.accepts, beq_iff_eq]

/-- A word that a row accepts agrees with the row's match wherever the row's mask looks, slice by slice (R86). -/
theorem slice_of_accepts {r : Row} {w : Word} (h : r.accepts w = true) (start len : Nat) :
    w.extractLsb' start len &&& r.mask.extractLsb' start len = r.matchBits.extractLsb' start len := by
  rw [← BitVec.extractLsb'_and, (accepts_iff r w).mp h]

/-- A slice that the mask covers whole is the match's slice. -/
theorem slice_of_covered {r : Row} {w : Word} (h : r.accepts w = true) {start len : Nat}
    (hmask : r.mask.extractLsb' start len = BitVec.allOnes len) :
    w.extractLsb' start len = r.matchBits.extractLsb' start len := by
  have hslice := slice_of_accepts h start len
  rwa [hmask, BitVec.and_allOnes] at hslice

/-- The opcode byte of a row (R86). -/
def rowOpcode (r : Row) : BitVec 8 := opcodeOf r.matchBits

theorem rows_cover_opcode : ∀ r ∈ opcodeRows, opcodeOf r.mask = BitVec.allOnes 8 := by decide

theorem rowOpcodes_nodup : (opcodeRows.map rowOpcode).Nodup := by decide

theorem mnemonics_nodup : (opcodeRows.map Row.mnemonic).Nodup := by decide

theorem opcodeOf_of_accepts {r : Row} {w : Word} (hr : r ∈ opcodeRows) (h : r.accepts w = true) :
    opcodeOf w = rowOpcode r :=
  slice_of_covered h (rows_cover_opcode r hr)

/-- Settles O4: both rows have the word's opcode, and the opcodes differ (R83). -/
theorem noWordMatchesTwoRows : Obligations.NoWordMatchesTwoRows := by
  intro w r q hr hq hrw hqw
  have hop : rowOpcode r = rowOpcode q := (opcodeOf_of_accepts hr hrw).symm.trans (opcodeOf_of_accepts hq hqw)
  exact List.inj_on_of_nodup_map rowOpcodes_nodup hr hq hop

/-! ### What a row accepts, the decoder takes -/

/-- The register fields that a row of format R leaves to its command: those its mask does not look at (R87). -/
def rowUses (r : Row) : Uses where
  xd := r.mask.extractLsb' 21 3 == 0#3
  xs := r.mask.extractLsb' 18 3 == 0#3
  xt := r.mask.extractLsb' 15 3 == 0#3
  vd := r.mask.extractLsb' 12 3 == 0#3
  vs := r.mask.extractLsb' 9 3 == 0#3

/-- A row of format I (R82): the mask covers the `zero` field, whose match is 0. -/
abbrev RowOfFormatI (r : Row) : Prop := zeroIOf r.mask = BitVec.allOnes 5 ∧ zeroIOf r.matchBits = 0#5

/-- The row's mask covers the register field at bit `start` whole, with match 0, or not at all (R87). -/
abbrev FixesOrFreesField (r : Row) (start : Nat) : Prop :=
  (r.mask.extractLsb' start 3 = 0#3 ∨ r.mask.extractLsb' start 3 = BitVec.allOnes 3) ∧
    r.matchBits.extractLsb' start 3 = 0#3

/-- A row of format R (R81): the mask covers the `zero` field, whose match is 0, and fixes or frees each register field. -/
abbrev RowOfFormatR (r : Row) : Prop :=
  (zeroROf r.mask = BitVec.allOnes 9 ∧ zeroROf r.matchBits = 0#9) ∧
    ∀ start ∈ [21, 18, 15, 12, 9], FixesOrFreesField r start

theorem formatI_of_accepts {r : Row} {w : Word} (hr : RowOfFormatI r) (h : r.accepts w = true) (i : Instr) :
    formatI w i = .command i := by
  obtain ⟨hmask, hmatch⟩ := hr
  have hz : zeroIOf w = 0#5 := (slice_of_covered h hmask).trans hmatch
  simp [formatI, hz]

/-- A register field of an accepted word is left to the command, or it is 0. -/
theorem field_of_accepts {r : Row} {w : Word} (h : r.accepts w = true) {start : Nat}
    (hfield : FixesOrFreesField r start) :
    (r.mask.extractLsb' start 3 == 0#3) = true ∨ regField (w.extractLsb' start 3) = 0 := by
  obtain ⟨hfree | hcovered, hmatch⟩ := hfield
  · exact .inl (beq_iff_eq.mpr hfree)
  · right
    rw [slice_of_covered h hcovered, hmatch]
    rfl

theorem formatR_of_accepts {r : Row} {w : Word} (hr : RowOfFormatR r) (h : r.accepts w = true) (i : Instr) :
    formatR w (rowUses r) i = .command i := by
  obtain ⟨⟨hmask, hmatch⟩, hfields⟩ := hr
  have hz : zeroROf w = 0#9 := (slice_of_covered h hmask).trans hmatch
  have hxd := field_of_accepts h (hfields 21 (by decide))
  have hxs := field_of_accepts h (hfields 18 (by decide))
  have hxt := field_of_accepts h (hfields 15 (by decide))
  have hvd := field_of_accepts h (hfields 12 (by decide))
  have hvs := field_of_accepts h (hfields 9 (by decide))
  exact if_pos ⟨hz, hxd, hxs, hxt, hvd, hvs⟩

/-- Row by row: the opcode leads the decoder to the row's branch, whose check asks of the word no more than the row does. -/
theorem decode_ne_reserved_of_accepts {r : Row} {w : Word} (hr : r ∈ opcodeRows) (h : r.accepts w = true) :
    decode w ≠ .reservedEncoding := by
  have hop := opcodeOf_of_accepts hr h
  unfold decode
  rw [hop]
  fin_cases hr
  iterate 2
    · exact ne_of_eq_of_ne (formatI_of_accepts (by decide) h _) nofun
  all_goals exact ne_of_eq_of_ne (formatR_of_accepts (by decide) h _) nofun

/-! ### What the decoder takes, a row accepts -/

open Laws.EncodeLegal in
/-- The word of any command is accepted by the command's own row. -/
theorem ownRow_accepts_encode : (i : Instr) → Statement i
  | .ldi _ _ => ldi _ _ | .ldih _ _ => ldih _ _ | .vset _ _ => vset _ _ | .vset64 _ _ _ => vset64 _ _ _
  | .vmov _ _ => vmov _ _ | .vlen _ _ => vlen _ _ | .vgetl _ _ _ => vgetl _ _ _ | .vputl _ _ _ => vputl _ _ _
  | .mfov _ => mfov _ | .addl _ _ => addl _ _ | .adcl _ _ => adcl _ _ | .vadd _ _ => vadd _ _
  | .vadds _ _ => vadds _ _ | .vsub _ _ => vsub _ _ | .mull _ _ => mull _ _ | .vmul _ _ => vmul _ _
  | .vmuls _ _ => vmuls _ _ | .shll _ _ => shll _ _ | .shllo _ _ => shllo _ _ | .shrl _ _ => shrl _ _
  | .shrnl _ _ _ => shrnl _ _ _ | .vshl _ _ => vshl _ _ | .vshr _ _ => vshr _ _ | .vinv _ _ => vinv _ _
  | .vsetb _ _ => vsetb _ _ | .vclrb _ _ => vclrb _ _ | .vtstb _ _ => vtstb _ _ | .ctzl _ _ => ctzl _ _
  | .vlal _ _ => vlal _ _ | .vral _ _ => vral _ _ | .cmpl _ _ => cmpl _ _ | .vcmp _ _ => vcmp _ _
  | .log2l _ _ => log2l _ _ | .vlog2 _ _ => vlog2 _ _ | .vdiv _ _ _ _ => vdiv _ _ _ _

theorem ownRow_accepts_of_decode {w : Word} {i : Instr} (h : decode w = .command i) :
    ∃ r ∈ opcodeRows, r.mnemonic = mnemonic i ∧ r.accepts w = true := by
  rw [← encodeInvertsDecode w i h]
  exact ownRow_accepts_encode i

/-- A row accepts exactly the words of the commands with its mnemonic: the decoder takes what the row accepts, and the
command's own row is then that row, because no word matches two. -/
theorem accepts_iff_decode {r : Row} (hr : r ∈ opcodeRows) (w : Word) :
    r.accepts w = true ↔ ∃ i, decode w = .command i ∧ mnemonic i = r.mnemonic := by
  constructor
  · intro h
    cases hd : decode w with
    | reservedEncoding => exact absurd hd (decode_ne_reserved_of_accepts hr h)
    | command i =>
      obtain ⟨q, hq, hname, hqw⟩ := ownRow_accepts_of_decode hd
      rw [noWordMatchesTwoRows w r q hr hq h hqw]
      exact ⟨i, rfl, hname.symm⟩
  · rintro ⟨i, hd, hi⟩
    obtain ⟨q, hq, hname, hqw⟩ := ownRow_accepts_of_decode hd
    rwa [List.inj_on_of_nodup_map mnemonics_nodup hr hq (hi.symm.trans hname.symm)]

theorem no_row_accepts_iff_reserved (w : Word) :
    (∀ r ∈ opcodeRows, r.accepts w = false) ↔ decode w = .reservedEncoding := by
  constructor
  · intro hrows
    cases hd : decode w with
    | reservedEncoding => rfl
    | command i =>
      obtain ⟨r, hr, -, hrw⟩ := ownRow_accepts_of_decode hd
      exact absurd (hrows r hr) (by simp [hrw])
  · intro hd r hr
    exact Bool.eq_false_iff.mpr fun h => decode_ne_reserved_of_accepts hr h hd

/-- Settles O3: row by row, and for the words that no row accepts. -/
theorem decodeAcceptsExactlyTheRows : Obligations.DecodeAcceptsExactlyTheRows :=
  fun w => ⟨fun _ hr => accepts_iff_decode hr w, no_row_accepts_iff_reserved w⟩

/-! ### The words written out from the opcode map -/

/-- Settles O5: the eleven words are closed terms, and the decoder is evaluated on each. -/
theorem sampleWordsDecode : Obligations.SampleWordsDecode := by
  unfold Obligations.SampleWordsDecode
  decide

/-! ### LI32 -/

/-- Of two writes to one scalar register the second stands. -/
theorem writeX_writeX (b : Block) (r : XReg) (l m : Limb) : (b.writeX r l).writeX r m = b.writeX r m := by
  simp [Block.writeX]

/-- LDI writes the zero-extended immediate and nothing else (R110). -/
theorem exec_ldi (xd : XReg) (imm16 : BitVec 16) (s : State) :
    exec (.ldi xd imm16) s = .next (s.withBlock (s.toBlock.writeX xd (immLow imm16))) := rfl

/-- LDIH writes the immediate above the low half of the old value and nothing else (R111). -/
theorem exec_ldih (xd : XReg) (imm16 : BitVec 16) (s : State) :
    exec (.ldih xd imm16) s = .next (s.withBlock (s.toBlock.writeX xd (immHigh imm16 (s.readX xd)))) := rfl

/-- The two halves of a word, the low one zero-extended and the high one put above it, are the word (R84). -/
theorem immHigh_immLow (w : Word) : immHigh (w.extractLsb' 16 16) (immLow (w.extractLsb' 0 16)) = w := by
  have hlow : (immLow (w.extractLsb' 0 16)).extractLsb' 0 16 = w.extractLsb' 0 16 := by
    apply BitVec.eq_of_toNat_eq
    simp [immLow]
  rw [immHigh, hlow, BitVec.extractLsb'_append_extractLsb'_eq_extractLsb' (by rfl), slice_self]

/-- The low half alone is the word when the word is below 65536. -/
theorem immLow_of_lt {w : Word} (h : w.toNat < 65536) : immLow (w.extractLsb' 0 16) = w := by
  apply BitVec.eq_of_toNat_eq
  simp only [immLow, BitVec.toNat_setWidth, BitVec.extractLsb'_toNat, Nat.shiftRight_zero]
  omega

/-- Settles O54: LDIH reads back the half that LDI wrote, and its write covers LDI's. -/
theorem li32LoadsWholeWord : Obligations.Li32LoadsWholeWord := by
  intro xd imm32 s
  refine ⟨rfl, ⟨_, exec_ldi xd _ s, ?_⟩, fun h => ?_⟩
  · rw [exec_ldih, withBlock_toBlock, withBlock_withBlock, writeX_readX, if_pos rfl, immHigh_immLow, writeX_writeX]
    rfl
  · rw [exec_ldi, immLow_of_lt h]
    rfl

/-! ### The assembler -/

/-- Among commands of different mnemonics, a command's mnemonic picks that command. -/
theorem pickCommand_of_mem {i : Instr} {cs : List Instr} (hi : i ∈ cs) (hnames : (cs.map mnemonic).Nodup) :
    pickCommand (mnemonic i).toList cs = some [i] := by
  unfold pickCommand
  cases hfind : cs.find? fun j => (mnemonic j).toList == (mnemonic i).toList with
  | none => exact absurd (List.find?_eq_none.mp hfind i hi) (by simp)
  | some j =>
    have hmatch := List.find?_some hfind
    have hname : mnemonic j = mnemonic i := String.toList_injective (beq_iff_eq.mp hmatch)
    rw [List.inj_on_of_nodup_map hnames (List.mem_of_find?_eq_some hfind) hi hname]
    rfl

/-- A mnemonic other than LI32 with a register and an immediate below 2^16 is LDI or LDIH (R91). -/
theorem assembleCommand_imm {name : List Char} (hname : name ≠ "LI32".toList) (xd : XReg) (imm16 : BitVec 16) :
    assembleCommand name [.x xd, .imm imm16.toNat] = pickCommand name [.ldi xd imm16, .ldih xd imm16] := by
  rw [assembleCommand, if_neg hname, if_pos imm16.isLt, BitVec.ofNat_toNat, BitVec.setWidth_eq]

/-- Settles O55: the shape of the operands fixes the candidates, whose mnemonics differ. -/
theorem assemblerReadsEveryCommand : Obligations.AssemblerReadsEveryCommand := by
  intro i
  cases i
  case ldi xd imm16 | ldih xd imm16 =>
    rw [operands, assembleCommand_imm (by simp [mnemonic])]
    exact pickCommand_of_mem (by simp) (by simp [mnemonic])
  all_goals exact pickCommand_of_mem (by simp) (by simp [mnemonic])

end Sys2Proof.Proofs.Encoding
end

section
/-! PROOFS of the family 40_data_movement.md. A command that moves data is one register write, or a fault (R13); what is
left to prove is that the sequence or word the rule builds is the one of the value stated. Sequences are settled by R24:
a reduced sequence is the `limbs` of its value. -/

namespace Sys2Proof.Proofs.DataMovement

open Sys2Proof Sys2Proof.Machine Sys2Proof.Proofs.Scope Sys2Proof.Proofs.StateFamily Sys2Proof.Proofs.LegalStates
  Sys2Proof.Proofs.Encoding

/-! ### Values put together from parts -/

theorem val_pair (l h : Limb) : val [l, h] = h.toNat * 2 ^ 32 + l.toNat := by
  rw [val_cons, val_single, Nat.mul_comm, Nat.add_comm]

/-- A zero limb on top adds nothing to the value. -/
theorem val_append_zero (L : List Limb) : val (L ++ [0#32]) = val L := by
  simp [val_append]

/-- A limb that is not 0 on top leaves nothing to reduce. -/
theorem reducedForm_append_of_ne_zero (L : List Limb) {l : Limb} (hl : l ≠ 0#32) : reducedForm (L ++ [l]) = true := by
  rw [reducedForm_iff]
  simp [hl]

/-- LDI's zero extension keeps the immediate's value (R84). -/
theorem immLow_eq_ofNat (imm16 : BitVec 16) : immLow imm16 = BitVec.ofNat 32 imm16.toNat :=
  (BitVec.ofNat_toNat 32 imm16).symm

/-- LDIH's immediate counts 65536 times, above what is left of the old value modulo 65536 (R84). -/
theorem immHigh_eq_ofNat (imm16 : BitVec 16) (old : Limb) :
    immHigh imm16 old = BitVec.ofNat 32 (imm16.toNat * 65536 + old.toNat % 65536) := by
  have hlow : (old.extractLsb' 0 16).toNat = old.toNat % 65536 := by simp
  have hhigh := imm16.isLt
  apply BitVec.eq_of_toNat_eq
  rw [immHigh, BitVec.toNat_append, ← Nat.shiftLeft_add_eq_or_of_lt (BitVec.isLt _), hlow, BitVec.toNat_ofNat,
    Nat.shiftLeft_eq]
  omega

/-! ### The construction commands -/

/-- VSET's one limb is reduced, zero or not (R113). -/
theorem vset_eq (vd : VReg) (xs : XReg) (b : Block) :
    Block.vset vd xs b = b.writeV vd (limbs (b.readX xs).toNat) := by
  rw [Block.vset, ← val_single, limbs_val (reducedForm_single _)]

/-- VSET64 leaves limb 1 out exactly when it would be a zero limb on top (R114). -/
theorem vset64_eq (vd : VReg) (xs xt : XReg) (b : Block) :
    Block.vset64 vd xs xt b = b.writeV vd (limbs ((b.readX xt).toNat * 2 ^ 32 + (b.readX xs).toNat)) := by
  unfold Block.vset64
  split
  case isTrue h =>
    rw [h, BitVec.toNat_zero, Nat.zero_mul, Nat.zero_add, ← val_single, limbs_val (reducedForm_single _)]
  case isFalse h =>
    rw [← val_pair, limbs_val (legalReg_pair le_rfl _ h).1]

/-- Settles O24: both commands write the reduced sequence of their value. -/
theorem vsetAndVset64BuildFromScalars : Obligations.VsetAndVset64BuildFromScalars := by
  intro vd xs xt s
  constructor
  · rw [exec_eq_withBlock, Block.exec, vset_eq]
    rfl
  · rw [exec_eq_withBlock, Block.exec, vset64_eq]
    rfl

/-! ### VPUTL -/

theorem putLimb_of_lt {L : List Limb} {j : Nat} (h : j < L.length) (l : Limb) : putLimb L j l = L.set j l :=
  if_pos h

theorem putLimb_length (L : List Limb) (l : Limb) : putLimb L L.length l = L ++ [l] :=
  if_neg (Nat.lt_irrefl _)

section Vputl
variable {cap : Nat} {vd : VReg} {xs xt : XReg} {b : Block}

/-- VPUTL within its index range: the new sequence, reduced, goes through the capacity test (R118). -/
theorem vputl_of_le (h : (b.readX xs).toNat ≤ (b.readV vd).length) :
    Block.vputl cap vd xs xt b =
      commitV cap (.vputl vd xs xt) vd (reduce (putLimb (b.readV vd) (b.readX xs).toNat (b.readX xt))) b :=
  if_pos (decide_eq_true h)

/-- VPUTL above the length (R118, R282). -/
theorem vputl_of_gt (h : (b.readV vd).length < (b.readX xs).toNat) :
    Block.vputl cap vd xs xt b = b.faultEntry .operandRange (encode (.vputl vd xs xt)) :=
  if_neg fun hle => absurd (of_decide_eq_true hle) h.not_ge

/-- Replacing a limb never needs more limbs than the register holds, so the capacity test passes (R118). -/
theorem vputl_replaces (hL : (b.readV vd).length ≤ cap) (h : (b.readX xs).toNat < (b.readV vd).length) :
    Block.vputl cap vd xs xt b =
      b.writeV vd (limbs (val ((b.readV vd).set (b.readX xs).toNat (b.readX xt)))) := by
  have hne : (b.readV vd).set (b.readX xs).toNat (b.readX xt) ≠ [] := by
    rw [← List.length_pos_iff, List.length_set]
    omega
  have hfits := length_reduce_le _ hne
  rw [List.length_set] at hfits
  rw [vputl_of_le h.le, putLimb_of_lt h, commitV_fits (hfits.trans hL), reduce_eq_limbs]

/-- A zero limb appended is reduced away again, at full capacity too (R118, conflict C8). -/
theorem vputl_appends_zero (hL : LegalReg cap (b.readV vd)) (h : (b.readX xs).toNat = (b.readV vd).length)
    (hz : b.readX xt = 0#32) : Block.vputl cap vd xs xt b = b := by
  have hsame : reduce (b.readV vd ++ [0#32]) = b.readV vd := by
    rw [reduce_eq_limbs, val_append_zero, limbs_val hL.1]
  rw [vputl_of_le h.le, h, putLimb_length, hz, hsame, commitV_fits hL.2, writeV_self]

/-- Any other limb appended lengthens the sequence by one, and that length is tested (R118, R285). -/
theorem vputl_appends_nonzero (h : (b.readX xs).toNat = (b.readV vd).length) (hnz : b.readX xt ≠ 0#32) :
    Block.vputl cap vd xs xt b = commitV cap (.vputl vd xs xt) vd (b.readV vd ++ [b.readX xt]) b := by
  rw [vputl_of_le h.le, h, putLimb_length, reduce_of_reducedForm (reducedForm_append_of_ne_zero _ hnz)]

end Vputl

/-- Settles O27: by the index against the length; at the length by the limb, and then by the room left. -/
theorem vputlWritesOneLimb : Obligations.VputlWritesOneLimb := by
  intro vd xs xt s hwf j L
  have hL : LegalReg s.cap L := (wfV_iff s vd).mp hwf
  rw [exec_eq_withBlock, Block.exec]
  refine ⟨fun hlt => ?_, fun heq hz => ?_, fun heq hnz hroom => ?_, fun heq hnz hfull => ?_, fun hgt => ?_⟩
  · rw [vputl_replaces hL.2 hlt]
    rfl
  · rw [vputl_appends_zero hL heq hz, withBlock_self]
  · have hfits : (L ++ [s.readX xt]).length ≤ s.cap := by simpa using hroom
    rw [vputl_appends_nonzero heq hnz, commitV_fits hfits]
    rfl
  · have hover : s.cap < (L ++ [s.readX xt]).length := by simp [hfull]
    rw [vputl_appends_nonzero heq hnz, commitV_overflows hover]
    rfl
  · rw [vputl_of_gt hgt]
    rfl

/-! ### The moves and the reads -/

/-- Settles O22: the two words LDI and LDIH write are the numbers stated. -/
theorem ldiAndLdihLoadImmediates : Obligations.LdiAndLdihLoadImmediates := by
  intro xd imm16 s
  constructor
  · rw [exec_ldi, immLow_eq_ofNat]
    rfl
  · rw [exec_ldih, immHigh_eq_ofNat]
    rfl

/-- Settles O23: the meaning of MFOV is that one write. -/
theorem mfovCopiesOverflow : Obligations.MfovCopiesOverflow := fun xd s =>
  exec_eq_withBlock (.mfov xd) s

/-- Settles O25: the meanings of VMOV and VLEN are those writes. -/
theorem vmovAndVlenReadWholeRegisters : Obligations.VmovAndVlenReadWholeRegisters := fun vd vs xd s =>
  ⟨exec_eq_withBlock (.vmov vd vs) s, exec_eq_withBlock (.vlen xd vs) s⟩

/-- VGETL below the length reads the limb itself, not the default (R117). -/
theorem vgetl_of_lt {xd xs : XReg} {vs : VReg} {b : Block} (h : (b.readX xs).toNat < (b.readV vs).length) :
    Block.vgetl xd vs xs b = b.writeX xd (b.readV vs)[(b.readX xs).toNat] := by
  rw [← List.getD_eq_getElem _ 0#32 h]
  exact if_pos (decide_eq_true h)

/-- VGETL at or above the length (R117, R282). -/
theorem vgetl_of_ge {xd xs : XReg} {vs : VReg} {b : Block} (h : (b.readV vs).length ≤ (b.readX xs).toNat) :
    Block.vgetl xd vs xs b = b.faultEntry .operandRange (encode (.vgetl xd vs xs)) :=
  if_neg fun hlt => absurd (of_decide_eq_true hlt) h.not_gt

/-- Settles O26: the two sides of the index test. -/
theorem vgetlReadsOneLimb : Obligations.VgetlReadsOneLimb := by
  intro xd xs vs s
  rw [exec_eq_withBlock, Block.exec]
  constructor
  · intro hlt
    rw [vgetl_of_lt hlt]
    rfl
  · intro hge
    rw [vgetl_of_ge hge]
    rfl

end Sys2Proof.Proofs.DataMovement
end

section
/-! PROOFS of the family 41_limb_adder.md. The commands on single limbs come down to the adder's identity (R130) and the
shifter's step (R165); the commands on sequences come down to the value of the sequence written, which one capacity test
on values guards (R285). The chain and the round trip compose these meanings. -/

namespace Sys2Proof.Proofs.LimbAdder

open Sys2Proof Sys2Proof.Machine Sys2Proof.Proofs.Scope Sys2Proof.Proofs.StateFamily Sys2Proof.Proofs.LegalStates

/-! ### ADDL and ADCL -/

/-- The sum limb is the sum modulo 2^32 (R130). -/
theorem limbAdd_fst (a b : Limb) (c : Bool) : (limbAdd a b c).1 = a + b + BitVec.ofNat 32 c.toNat := by
  have hspec := limbAdd_spec a b c
  have hlt := (limbAdd a b c).1.isLt
  apply BitVec.eq_of_toNat_eq
  rw [BitVec.toNat_add, BitVec.toNat_add, BitVec.toNat_ofNat]
  omega

/-- The carry out says that the sum is 2^32 or more (R130). -/
theorem limbAdd_snd (a b : Limb) (c : Bool) :
    (limbAdd a b c).2 = decide (2 ^ 32 ≤ a.toNat + b.toNat + c.toNat) := by
  have hlt := (limbAdd a b c).1.isLt
  rw [← limbAdd_spec]
  cases (limbAdd a b c).2 with
  | false => simp [hlt]
  | true => simp

theorem exec_addl (xd xs : XReg) (s : State) :
    exec (.addl xd xs) s = .next (s.withBlock (addLimbs xd xs false s.toBlock)) := rfl

theorem exec_adcl (xd xs : XReg) (s : State) :
    exec (.adcl xd xs) s = .next (s.withBlock (addLimbs xd xs s.flagC s.toBlock)) := rfl

/-- Settles O28: the limb adder's two results, with carry in 0 for ADDL. -/
theorem addlAndAdclAddLimbs : Obligations.AddlAndAdclAddLimbs := by
  intro xd xs s
  constructor
  · rw [exec_addl, addLimbs_eq, limbAdd_fst, limbAdd_snd, Bool.toNat_false, BitVec.add_zero, Nat.add_zero]
    rfl
  · rw [exec_adcl, addLimbs_eq, limbAdd_fst, limbAdd_snd]
    rfl

/-! ### VADD and VADDS -/

section Capacity
variable {cap : Nat} {i : Instr} {vd : VReg} {b : Block} {n : Nat}

/-- The capacity test on the reduced sequence of a value, passed: the value has at most `32 * CAP` bits (R285). -/
theorem commitV_limbs_fits (hcap : 0 < cap) (h : bitlen n ≤ 32 * cap) :
    commitV cap i vd (limbs n) b = b.writeV vd (limbs n) :=
  commitV_fits ((length_limbs_le_iff n hcap).mpr h)

/-- The same test, failed (R285). -/
theorem commitV_limbs_overflows (hcap : 0 < cap) (h : 32 * cap < bitlen n) :
    commitV cap i vd (limbs n) b = b.faultEntry .capacityOverflow (encode i) :=
  commitV_overflows (lt_of_not_ge fun hle => h.not_ge ((length_limbs_le_iff n hcap).mp hle))

end Capacity

theorem cap_pos_of_capLegal {s : State} (h : s.capLegal) : 0 < s.cap :=
  lt_of_lt_of_le (by decide) h.1

/-- VADD puts the reduced sequence of the sum through the capacity test (R134). -/
theorem exec_vadd (vd vs : VReg) (s : State) :
    exec (.vadd vd vs) s =
      .next (s.withBlock (commitV s.cap (.vadd vd vs) vd (limbs (s.valV vd + s.valV vs)) s.toBlock)) := by
  rw [exec_eq_withBlock, Block.exec, Block.vadd, chainAdd_eq]
  rfl

/-- VADDS does so with the scalar as a one-limb operand (R135). -/
theorem exec_vadds (vd : VReg) (xs : XReg) (s : State) :
    exec (.vadds vd xs) s =
      .next (s.withBlock (commitV s.cap (.vadds vd xs) vd (limbs (s.valV vd + (s.readX xs).toNat)) s.toBlock)) := by
  rw [exec_eq_withBlock, Block.exec, Block.vadds, chainAdd_eq, val_single]
  rfl

/-- Settles O29: the two sides of the capacity test on the sum. -/
theorem vaddAddsExactly : Obligations.VaddAddsExactly := by
  intro vd vs s hlegal
  have hcap := cap_pos_of_capLegal hlegal
  rw [exec_vadd]
  constructor
  · intro hfits
    rw [commitV_limbs_fits hcap hfits]
    rfl
  · intro hover
    rw [commitV_limbs_overflows hcap hover]
    rfl

/-- Settles O30: the two sides of the capacity test on the sum with the scalar. -/
theorem vaddsAddsScalar : Obligations.VaddsAddsScalar := by
  intro vd xs s hlegal
  have hcap := cap_pos_of_capLegal hlegal
  rw [exec_vadds]
  constructor
  · intro hfits
    rw [commitV_limbs_fits hcap hfits]
    rfl
  · intro hover
    rw [commitV_limbs_overflows hcap hover]
    rfl

/-! ### VSUB, and VSUB after VADD -/

/-- VSUB of two reduced operands writes the reduced sequence of their distance (R136, R212). -/
theorem exec_vsub {vd vs : VReg} {s : State} (hd : reducedForm (s.readV vd) = true)
    (hs : reducedForm (s.readV vs) = true) :
    exec (.vsub vd vs) s =
      .next (s.withBlock (s.toBlock.writeV vd (limbs (natDiff (s.valV vd) (s.valV vs))))) := by
  rw [exec_eq_withBlock, Block.exec, Block.vsub, absDiff_eq hd hs]
  rfl

/-- Settles O31: legal registers are reduced (R24). -/
theorem vsubIsAbsoluteDifference : Obligations.VsubIsAbsoluteDifference := by
  intro vd vs s hwd hws
  obtain ⟨hd, -⟩ := (wfV_iff s vd).mp hwd
  obtain ⟨hs, -⟩ := (wfV_iff s vs).mp hws
  exact exec_vsub hd hs

/-- Subtracting what was added gives the reduced sequence of the value before (R137). -/
theorem absDiff_limbs_add {B : List Limb} (hB : reducedForm B = true) (m : Nat) :
    absDiff (limbs (m + val B)) B = limbs m := by
  have hdist : m + val B - val B + (val B - (m + val B)) = m := by omega
  rw [absDiff_eq (reducedForm_limbs _) hB, val_limbs, hdist]

/-- Of two writes to one BigNat register the second stands. -/
theorem writeV_writeV (b : Block) (r : VReg) (L M : List Limb) : (b.writeV r L).writeV r M = b.writeV r M := by
  simp [Block.writeV]

/-- Settles O56: VADD leaves the register subtracted alone, so VSUB makes the reduced sequence of the old value, which
is what the register held (R24). -/
theorem addThenSubtractRestores : Obligations.AddThenSubtractRestores := by
  intro vd vs s hne hlegal hwd hws hfits
  obtain ⟨hd, -⟩ := (wfV_iff s vd).mp hwd
  obtain ⟨hs, -⟩ := (wfV_iff s vs).mp hws
  have hback : absDiff (limbs (s.valV vd + s.valV vs)) (s.readV vs) = s.readV vd :=
    (absDiff_limbs_add hs _).trans (limbs_val hd)
  refine ⟨s.withBlock (s.toBlock.writeV vd (limbs (s.valV vd + s.valV vs))), ?_, ?_⟩
  · rw [exec_vadd, commitV_limbs_fits (cap_pos_of_capLegal hlegal) hfits]
  · rw [exec_eq_withBlock, Block.exec, Block.vsub, withBlock_toBlock, writeV_readV, if_pos rfl, writeV_readV,
      if_neg hne.symm, hback, withBlock_withBlock, writeV_writeV, writeV_self, withBlock_self]

/-! ### Two-limb values -/

/-- The carry of the low limbs handed to the high limbs makes a two-limb addition (R130). -/
theorem limbAdd_chain (a0 a1 b0 b1 : Limb) :
    (limbAdd a0 b0 false).1.toNat + 2 ^ 32 * (limbAdd a1 b1 (limbAdd a0 b0 false).2).1.toNat +
        2 ^ 64 * (limbAdd a1 b1 (limbAdd a0 b0 false).2).2.toNat =
      (a0.toNat + 2 ^ 32 * a1.toNat) + (b0.toNat + 2 ^ 32 * b1.toNat) := by
  have hlow := limbAdd_spec a0 b0 false
  have hhigh := limbAdd_spec a1 b1 (limbAdd a0 b0 false).2
  rw [Bool.toNat_false] at hlow
  omega

/-- The bits pushed out of the low limb and into the high limb make a two-limb shift (R165). -/
theorem shlStep_chain (lo hi : Limb) {r : Nat} (hr : r < 32) :
    (shlStep lo r 0#32).1.toNat + 2 ^ 32 * (shlStep hi r (shlStep lo r 0#32).2).1.toNat +
        2 ^ 64 * (shlStep hi r (shlStep lo r 0#32).2).2.toNat =
      (lo.toNat + 2 ^ 32 * hi.toNat) * 2 ^ r := by
  obtain ⟨hlow, hout⟩ := shlStep_spec lo r 0#32 hr (by simp)
  obtain ⟨hhigh, -⟩ := shlStep_spec hi r (shlStep lo r 0#32).2 hr hout
  rw [BitVec.toNat_zero] at hlow
  rw [Nat.add_mul, Nat.mul_assoc]
  omega

/-- SHLL and SHLLO with a legal count (R166, R167). -/
theorem shiftLimbLeft_of_lt {i : Instr} {xd xs : XReg} {ov : Limb} {b : Block} (h : (b.readX xs).toNat < 32) :
    shiftLimbLeft i xd xs ov b =
      (b.writeX xd (shlStep (b.readX xd) (b.readX xs).toNat ov).1).writeOV
        (shlStep (b.readX xd) (b.readX xs).toNat ov).2 := by
  obtain ⟨-, hshift⟩ | ⟨hge, -⟩ := shiftLimbLeft_cases i xd xs ov b
  · exact hshift
  · omega

theorem exec_shll (xd xs : XReg) (s : State) :
    exec (.shll xd xs) s = .next (s.withBlock (shiftLimbLeft (.shll xd xs) xd xs 0#32 s.toBlock)) := rfl

theorem exec_shllo (xd xs : XReg) (s : State) :
    exec (.shllo xd xs) s = .next (s.withBlock (shiftLimbLeft (.shllo xd xs) xd xs s.ov s.toBlock)) := rfl

/-- Settles O59: the first command of each chain leaves the operands of the second alone, so the second sees the old
high limbs and the carry or the bits handed on. -/
theorem limbChainsComputeTwoLimbValues : Obligations.LimbChainsComputeTwoLimbValues := by
  constructor
  · intro a0 a1 b0 b1 s ha hb
    refine ⟨_, _, exec_addl a0 b0 s, exec_adcl a1 b1 _, ?_⟩
    rw [← limbAdd_chain]
    simp [addLimbs_eq, ha, ha.symm, hb.symm]
  · intro lo hi cnt s hlh hlc hcount
    refine ⟨_, _, exec_shll lo cnt s, exec_shllo hi cnt _, ?_⟩
    rw [← shlStep_chain _ _ hcount]
    simp [shiftLimbLeft_of_lt, hcount, hlh, hlh.symm, hlc.symm]

end Sys2Proof.Proofs.LimbAdder
end

section
/-! PROOFS of the family 42_limb_multiplier.md. MULL splits the 64 bit product of two limbs (R151); VMUL and VMULS put
the reduced sequence of the product through one capacity test (R285). The limbs of a sequence are the digits of its value,
which is why the halves MULL writes are the limbs VMUL writes (R155). -/

namespace Sys2Proof.Proofs.LimbMultiplier

open Sys2Proof Sys2Proof.Machine Sys2Proof.Proofs.Scope Sys2Proof.Proofs.LimbAdder

/-! ### MULL -/

theorem toNat_mul_toNat_lt (a b : Limb) : a.toNat * b.toNat < 2 ^ 64 :=
  calc a.toNat * b.toNat < 2 ^ 32 * 2 ^ 32 := Nat.mul_lt_mul'' a.isLt b.isLt
    _ = 2 ^ 64 := by norm_num

/-- The 64 bit product loses nothing (R151). -/
theorem toNat_limbProduct (a b : Limb) : (limbProduct a b).toNat = a.toNat * b.toNat := by
  have ha : a.toNat < 2 ^ 64 := a.isLt.trans (by norm_num)
  have hb : b.toNat < 2 ^ 64 := b.isLt.trans (by norm_num)
  rw [limbProduct, BitVec.toNat_mul, BitVec.toNat_setWidth, BitVec.toNat_setWidth, Nat.mod_eq_of_lt ha,
    Nat.mod_eq_of_lt hb, Nat.mod_eq_of_lt (toNat_mul_toNat_lt a b)]

/-- The half MULL writes to the scalar register is the product modulo 2^32 (R151). -/
theorem limbProduct_low (a b : Limb) : (limbProduct a b).extractLsb' 0 32 = a * b := by
  apply BitVec.eq_of_toNat_eq
  rw [BitVec.extractLsb'_toNat, toNat_limbProduct, Nat.shiftRight_zero, BitVec.toNat_mul]

/-- The half MULL writes to OV is the product divided by 2^32, rounded down (R151). -/
theorem limbProduct_high (a b : Limb) :
    (limbProduct a b).extractLsb' 32 32 = BitVec.ofNat 32 (a.toNat * b.toNat / 2 ^ 32) := by
  rw [BitVec.extractLsb', toNat_limbProduct, Nat.shiftRight_eq_div_pow]

theorem exec_mull (xd xs : XReg) (s : State) :
    exec (.mull xd xs) s = .next (s.withBlock ((s.toBlock.writeX xd (s.readX xd * s.readX xs)).writeOV
      (BitVec.ofNat 32 ((s.readX xd).toNat * (s.readX xs).toNat / 2 ^ 32)))) := by
  rw [exec_eq_withBlock, Block.exec, Block.mull, limbProduct_low, limbProduct_high]

/-- Settles O32: the two writes of MULL are the two halves stated. -/
theorem mullMultipliesLimbs : Obligations.MullMultipliesLimbs :=
  exec_mull

/-! ### VMUL and VMULS -/

/-- VMUL puts the reduced sequence of the product through the capacity test (R150, R153). -/
theorem exec_vmul (vd vs : VReg) (s : State) :
    exec (.vmul vd vs) s =
      .next (s.withBlock (commitV s.cap (.vmul vd vs) vd (limbs (s.valV vd * s.valV vs)) s.toBlock)) := by
  rw [exec_eq_withBlock, Block.exec, Block.vmul, shiftAddMul_eq]
  rfl

/-- VMULS does so with the scalar as a one-limb multiplier (R154). -/
theorem exec_vmuls (vd : VReg) (xs : XReg) (s : State) :
    exec (.vmuls vd xs) s =
      .next (s.withBlock (commitV s.cap (.vmuls vd xs) vd (limbs (s.valV vd * (s.readX xs).toNat)) s.toBlock)) := by
  rw [exec_eq_withBlock, Block.exec, Block.vmuls, shiftAddMul_eq, val_single]
  rfl

/-- The two sides of the capacity test on a value, as next states of the machine (R285). -/
theorem withBlock_commitV_limbs {s : State} (hlegal : s.capLegal) (i : Instr) (vd : VReg) (n : Nat) :
    (bitlen n ≤ 32 * s.cap →
      s.withBlock (commitV s.cap i vd (limbs n) s.toBlock) = s.withBlock (s.toBlock.writeV vd (limbs n))) ∧
    (32 * s.cap < bitlen n →
      s.withBlock (commitV s.cap i vd (limbs n) s.toBlock) = faultEntry .capacityOverflow (encode i) s) := by
  have hcap := cap_pos_of_capLegal hlegal
  constructor
  · intro hfits
    rw [commitV_limbs_fits hcap hfits]
  · intro hover
    rw [commitV_limbs_overflows hcap hover]
    rfl

/-- Settles O33: the two sides of the capacity test on the product. -/
theorem vmulMultipliesExactly : Obligations.VmulMultipliesExactly := by
  intro vd vs s hlegal
  obtain ⟨hfits, hover⟩ := withBlock_commitV_limbs hlegal (.vmul vd vs) vd (s.valV vd * s.valV vs)
  rw [exec_vmul]
  exact ⟨fun h => congrArg _ (hfits h), fun h => congrArg _ (hover h)⟩

/-- Settles O34: the two sides of the capacity test on the product with the scalar. -/
theorem vmulsMultipliesByScalar : Obligations.VmulsMultipliesByScalar := by
  intro vd xs s hlegal
  obtain ⟨hfits, hover⟩ := withBlock_commitV_limbs hlegal (.vmuls vd xs) vd (s.valV vd * (s.readX xs).toNat)
  rw [exec_vmuls]
  exact ⟨fun h => congrArg _ (hfits h), fun h => congrArg _ (hover h)⟩

/-! ### MULL against VMUL -/

/-- Limb `j` of a sequence is digit `j` of its value to the base 2^32, 0 above the top limb (R11). -/
theorem getD_eq_ofNat_val (L : List Limb) (j : Nat) : L.getD j 0#32 = BitVec.ofNat 32 (val L / 2 ^ (32 * j)) := by
  induction L generalizing j with
  | nil => simp
  | cons l L ih =>
    rw [val_cons]
    cases j with
    | zero =>
      apply BitVec.eq_of_toNat_eq
      rw [List.getD_cons_zero, Nat.mul_zero, pow_zero, Nat.div_one, BitVec.toNat_ofNat, Nat.add_mul_mod_self_left,
        Nat.mod_eq_of_lt l.isLt]
    | succ j =>
      have hrest : (l.toNat + 2 ^ 32 * val L) / 2 ^ 32 = val L := by
        rw [Nat.add_mul_div_left _ _ (by norm_num), Nat.div_eq_of_lt l.isLt, Nat.zero_add]
      rw [List.getD_cons_succ, ih, Nat.mul_succ, Nat.add_comm (32 * j), pow_add, ← Nat.div_div_eq_div_mul, hrest]

/-- Limb 0 of the product of two limbs is their product modulo 2^32. -/
theorem getD_zero_limbs_mul (a b : Limb) : (limbs (a.toNat * b.toNat)).getD 0 0#32 = a * b := by
  rw [getD_eq_ofNat_val, val_limbs, Nat.mul_zero, pow_zero, Nat.div_one]
  simp [BitVec.ofNat_mul]

/-- Limb 1 of the product of two limbs is its high half, 0 when the product has one limb only. -/
theorem getD_one_limbs_mul (a b : Limb) :
    (limbs (a.toNat * b.toNat)).getD 1 0#32 = BitVec.ofNat 32 (a.toNat * b.toNat / 2 ^ 32) := by
  rw [getD_eq_ofNat_val, val_limbs, Nat.mul_one]

/-- A product of two limbs fits two limbs, the least capacity that R6 allows. -/
theorem bitlen_mul_toNat_le {s : State} (hlegal : s.capLegal) (a b : Limb) :
    bitlen (a.toNat * b.toNat) ≤ 32 * s.cap := by
  have hbits : bitlen (a.toNat * b.toNat) ≤ 64 := (bitlen_le_iff _ _).mpr (toNat_mul_toNat_lt a b)
  have hcap : 2 ≤ s.cap := hlegal.1
  omega

/-- VMUL of two one-limb registers completes, whatever the limbs (R153, R155). -/
theorem exec_vmul_single {vd vs : VReg} {s : State} {a b : Limb} (hlegal : s.capLegal) (hvd : s.readV vd = [a])
    (hvs : s.readV vs = [b]) :
    exec (.vmul vd vs) s = .next (s.withBlock (s.toBlock.writeV vd (limbs (a.toNat * b.toNat)))) := by
  have hproduct : s.valV vd * s.valV vs = a.toNat * b.toNat := by
    rw [Block.valV, Block.valV, hvd, hvs, val_single, val_single]
  obtain ⟨hfits, -⟩ := withBlock_commitV_limbs hlegal (.vmul vd vs) vd (a.toNat * b.toNat)
  rw [exec_vmul, hproduct, hfits (bitlen_mul_toNat_le hlegal a b)]

/-- Settles O58: limbs 0 and 1 of the product VMUL writes are its digits 0 and 1, the halves MULL writes. -/
theorem mullAgreesWithVmul : Obligations.MullAgreesWithVmul := by
  intro xd xs vd vs s hlegal hvd hvs
  refine ⟨_, _, exec_mull xd xs s, exec_vmul_single hlegal hvd hvs, ?_, ?_⟩
  · rw [withBlock_toBlock, writeV_readV, if_pos rfl, getD_zero_limbs_mul, withBlock_toBlock, writeOV_readX,
      writeX_readX, if_pos rfl]
  · rw [withBlock_toBlock, writeV_readV, if_pos rfl, getD_one_limbs_mul, withBlock_toBlock, writeOV_ov]

end Sys2Proof.Proofs.LimbMultiplier
end

section
/-! PROOFS of the family 43_barrel_shifter.md. The commands on single limbs are one shift step (R165) behind a test of the
count (R282); the commands on sequences write the `limbs` of the value stated, some of them behind a test on the count and
the width (R285). The round trips undo one write of a register by the next. -/

namespace Sys2Proof.Proofs.BarrelShifter

open Sys2Proof Sys2Proof.Machine Sys2Proof.Proofs.Scope Sys2Proof.Proofs.StateFamily Sys2Proof.Proofs.LegalStates
  Sys2Proof.Proofs.LimbAdder

/-! ### The shift steps as words -/

/-- The limb stored is the limb shifted with the overflow in ored to it (R165). -/
theorem shlStep_fst (l : Limb) (r : Nat) (ov : Limb) : (shlStep l r ov).1 = (l <<< r) ||| ov := by
  apply BitVec.eq_of_getLsbD_eq
  intro i hi
  have hi64 : i < 64 := by omega
  have hi64' : i - r < 64 := by omega
  simp only [shlStep, shlAcc, BitVec.getLsbD_extractLsb', BitVec.getLsbD_or, BitVec.getLsbD_shiftLeft,
    BitVec.getLsbD_setWidth, hi, hi64, hi64', Nat.zero_add, decide_true, Bool.true_and]

/-- The overflow out is the bits pushed above bit 31; the overflow in does not reach them (R165). -/
theorem shlStep_snd (l : Limb) {r : Nat} (hr : r < 32) (ov : Limb) :
    (shlStep l r ov).2 = BitVec.ofNat 32 (l.toNat * 2 ^ r / 2 ^ 32) := by
  have hfit : l.toNat * 2 ^ r < 2 ^ 64 :=
    calc l.toNat * 2 ^ r < 2 ^ 32 * 2 ^ 32 :=
          Nat.mul_lt_mul'' l.isLt (Nat.pow_lt_pow_right (by norm_num) hr)
      _ = 2 ^ 64 := by norm_num
  have hl : l.toNat < 2 ^ 64 := l.isLt.trans (by norm_num)
  have hov : ov.toNat < 2 ^ 64 := ov.isLt.trans (by norm_num)
  have hacc : (shlAcc l r ov).toNat = l.toNat * 2 ^ r ||| ov.toNat := by
    rw [shlAcc, BitVec.toNat_or, BitVec.toNat_shiftLeft, BitVec.toNat_setWidth, BitVec.toNat_setWidth,
      Nat.mod_eq_of_lt hl, Nat.mod_eq_of_lt hov, Nat.shiftLeft_eq, Nat.mod_eq_of_lt hfit]
  have hhigh : (l.toNat * 2 ^ r ||| ov.toNat) / 2 ^ 32 = l.toNat * 2 ^ r / 2 ^ 32 := by
    rw [Nat.or_div_two_pow, Nat.div_eq_of_lt ov.isLt, Nat.or_zero]
  rw [← hhigh, ← hacc, ← Nat.shiftRight_eq_div_pow]
  rfl

/-- A logical shift right divides (R168). -/
theorem ushiftRight_eq_ofNat (l : Limb) (r : Nat) : l >>> r = BitVec.ofNat 32 (l.toNat / 2 ^ r) := by
  rw [← Nat.shiftRight_eq_div_pow, ← BitVec.toNat_ushiftRight, BitVec.ofNat_toNat, BitVec.setWidth_eq]

/-- The step right stores the low limb of the two-limb value shifted: of `next` only the low `r` bits stay below 2^32
(R165, R169). -/
theorem shrStep_eq (l next : Limb) {r : Nat} (hr : r < 32) :
    shrStep l next r = BitVec.ofNat 32 ((next.toNat * 2 ^ 32 + l.toNat) / 2 ^ r) := by
  have hsplit : 2 ^ 32 = 2 ^ r * 2 ^ (32 - r) := by rw [← pow_add, Nat.add_sub_cancel' hr.le]
  have hdiv : (next.toNat * 2 ^ 32 + l.toNat) / 2 ^ r = l.toNat / 2 ^ r + next.toNat * 2 ^ (32 - r) := by
    rw [hsplit, Nat.mul_left_comm, Nat.mul_add_div (by positivity), Nat.add_comm]
  have hlow : next.toNat * 2 ^ (32 - r) % 2 ^ 32 = next.toNat % 2 ^ r * 2 ^ (32 - r) := by
    rw [hsplit, Nat.mul_mod_mul_right]
  apply BitVec.eq_of_toNat_eq
  rw [hdiv, BitVec.toNat_ofNat, ← Nat.add_mod_mod, hlow, ← shrStep_spec l next r hr,
    Nat.mod_eq_of_lt (shrStep l next r).isLt]

/-! ### The limb shifts, on both sides of count 32 -/

section LimbShifts
variable {xd xs : XReg} {b : Block}

theorem shiftLimbLeft_of_ge {i : Instr} {ov : Limb} (h : 32 ≤ (b.readX xs).toNat) :
    shiftLimbLeft i xd xs ov b = b.faultEntry .operandRange (encode i) := by
  obtain ⟨hlt, -⟩ | ⟨-, hfault⟩ := shiftLimbLeft_cases i xd xs ov b
  · omega
  · exact hfault

/-- SHLL and SHLLO by a legal count, the two words written out (R166, R167). -/
theorem shiftLimbLeft_eq {i : Instr} {ov : Limb} (h : (b.readX xs).toNat < 32) :
    shiftLimbLeft i xd xs ov b =
      (b.writeX xd ((b.readX xd <<< (b.readX xs).toNat) ||| ov)).writeOV
        (BitVec.ofNat 32 ((b.readX xd).toNat * 2 ^ (b.readX xs).toNat / 2 ^ 32)) := by
  rw [shiftLimbLeft_of_lt h, shlStep_fst, shlStep_snd _ h]

theorem shrl_of_lt (h : (b.readX xs).toNat < 32) :
    Block.shrl xd xs b = b.writeX xd (BitVec.ofNat 32 ((b.readX xd).toNat / 2 ^ (b.readX xs).toNat)) := by
  rw [← ushiftRight_eq_ofNat]
  exact if_pos (decide_eq_true h)

theorem shrl_of_ge (h : 32 ≤ (b.readX xs).toNat) :
    Block.shrl xd xs b = b.faultEntry .operandRange (encode (.shrl xd xs)) :=
  if_neg fun hlt => absurd (of_decide_eq_true hlt) h.not_gt

variable {xt : XReg}

theorem shrnl_of_lt (h : (b.readX xs).toNat < 32) :
    Block.shrnl xd xs xt b = b.writeX xd
      (BitVec.ofNat 32 (((b.readX xt).toNat * 2 ^ 32 + (b.readX xd).toNat) / 2 ^ (b.readX xs).toNat)) := by
  rw [← shrStep_eq _ _ h]
  exact if_pos (decide_eq_true h)

theorem shrnl_of_ge (h : 32 ≤ (b.readX xs).toNat) :
    Block.shrnl xd xs xt b = b.faultEntry .operandRange (encode (.shrnl xd xs xt)) :=
  if_neg fun hlt => absurd (of_decide_eq_true hlt) h.not_gt

end LimbShifts

/-- Settles O35: the two sides of the count test; SHLL's overflow in is 0. -/
theorem shllAndShlloShiftLimbs : Obligations.ShllAndShlloShiftLimbs := by
  intro xd xs s
  rw [exec_shll, exec_shllo]
  constructor
  · intro hlt
    rw [shiftLimbLeft_eq hlt, shiftLimbLeft_eq hlt, BitVec.or_zero]
    exact ⟨rfl, rfl⟩
  · intro hge
    rw [shiftLimbLeft_of_ge hge, shiftLimbLeft_of_ge hge]
    exact ⟨rfl, rfl⟩

/-- Settles O36: the two sides of the count test. -/
theorem shrlAndShrnlShiftLimbs : Obligations.ShrlAndShrnlShiftLimbs := by
  intro xd xs xt s
  rw [exec_eq_withBlock, exec_eq_withBlock, Block.exec, Block.exec]
  constructor
  · intro hlt
    rw [shrl_of_lt hlt, shrnl_of_lt hlt]
    exact ⟨rfl, rfl⟩
  · intro hge
    rw [shrl_of_ge hge, shrnl_of_ge hge]
    exact ⟨rfl, rfl⟩

/-! ### The commands on sequences, in value terms -/

section SequenceShifts
variable {cap : Nat} {vd : VReg} {xs : XReg} {b : Block}

/-- VSHL without a fault: zero, which is written at once, is the product too (R170). -/
theorem vshl_of_fits (h : b.valV vd = 0 ∨ bitlen (b.valV vd) + (b.readX xs).toNat ≤ 32 * cap) :
    Block.vshl cap vd xs b = b.writeV vd (limbs (b.valV vd * 2 ^ (b.readX xs).toNat)) := by
  rw [Block.valV] at h ⊢
  rw [Block.vshl]
  by_cases hz : val (b.readV vd) = 0
  · rw [if_pos hz, hz, Nat.zero_mul, limbs_zero]
  · rw [if_neg hz, Block.countX, if_pos ((fitsBits_iff _ _).mpr (h.resolve_left hz)), shl_eq]

theorem vshl_of_overflow (hz : b.valV vd ≠ 0) (h : 32 * cap < bitlen (b.valV vd) + (b.readX xs).toNat) :
    Block.vshl cap vd xs b = b.faultEntry .capacityOverflow (encode (.vshl vd xs)) := by
  rw [Block.valV] at hz
  rw [Block.vshl, if_neg hz]
  exact if_neg fun hfits => h.not_ge ((fitsBits_iff _ _).mp hfits)

theorem vshr_eq (vd : VReg) (xs : XReg) (b : Block) :
    Block.vshr vd xs b = b.writeV vd (limbs (b.valV vd / 2 ^ (b.readX xs).toNat)) := by
  rw [Block.vshr, shr_eq]
  rfl

theorem vinv_of_fits (h : (b.readX xs).toNat ≤ 32 * cap) :
    Block.vinv cap vd xs b = b.writeV vd (limbs (invNat (b.valV vd) (b.readX xs).toNat)) := by
  rw [Block.vinv, inv_eq]
  exact if_pos ((fitsBits_iff _ _).mpr h)

theorem vinv_of_overflow (h : 32 * cap < (b.readX xs).toNat) :
    Block.vinv cap vd xs b = b.faultEntry .capacityOverflow (encode (.vinv vd xs)) :=
  if_neg fun hfits => h.not_ge ((fitsBits_iff _ _).mp hfits)

/-- A reduced sequence with a bit set is still reduced, so it is the `limbs` of its value (R24, R173). -/
theorem setBit_eq {L : List Limb} (hL : reducedForm L = true) (i : Nat) : setBit L i = limbs (val L ||| 2 ^ i) := by
  rw [← val_setBit, limbs_val (reducedForm_setBit hL i)]

theorem vsetb_of_fits (hL : reducedForm (b.readV vd) = true) (h : (b.readX xs).toNat < 32 * cap) :
    Block.vsetb cap vd xs b = b.writeV vd (limbs (b.valV vd ||| 2 ^ (b.readX xs).toNat)) := by
  rw [Block.vsetb, setBit_eq hL]
  exact if_pos ((fitsBits_iff _ _).mpr h)

theorem vsetb_of_overflow (h : 32 * cap ≤ (b.readX xs).toNat) :
    Block.vsetb cap vd xs b = b.faultEntry .capacityOverflow (encode (.vsetb vd xs)) :=
  if_neg fun hfits => absurd ((fitsBits_iff _ _).mp hfits) (Nat.lt_succ_of_le h).not_ge

/-- VCLRB of a set bit (R174). -/
theorem vclrb_of_set (hL : reducedForm (b.readV vd) = true)
    (h : (b.valV vd).testBit (b.readX xs).toNat = true) :
    Block.vclrb vd xs b = b.writeV vd (limbs (b.valV vd - 2 ^ (b.readX xs).toNat)) := by
  rw [Block.valV] at h ⊢
  rw [Block.vclrb, Block.countX, clearBit_eq hL, if_pos h]

/-- VCLRB of a clear bit writes back what the register holds (R174). -/
theorem vclrb_of_clear (hL : reducedForm (b.readV vd) = true)
    (h : (b.valV vd).testBit (b.readX xs).toNat = false) : Block.vclrb vd xs b = b := by
  rw [Block.valV] at h
  rw [Block.vclrb, Block.countX, clearBit_eq hL, if_neg (Bool.eq_false_iff.mp h), limbs_val hL, writeV_self]

end SequenceShifts

/-- Settles O37: the two sides of the capacity test, zero on the first. -/
theorem vshlShiftsLeft : Obligations.VshlShiftsLeft := by
  intro vd xs s
  rw [exec_eq_withBlock, Block.exec]
  constructor
  · intro hfits
    rw [vshl_of_fits hfits]
    rfl
  · intro hz hover
    rw [vshl_of_overflow hz hover]
    rfl

/-- Settles O38: VSHR has no test, only the one write. -/
theorem vshrShiftsRight : Obligations.VshrShiftsRight := by
  intro vd xs s
  rw [exec_eq_withBlock, Block.exec, vshr_eq]
  rfl

/-- Settles O39: the two sides of the capacity test on the window. -/
theorem vinvComplementsWindow : Obligations.VinvComplementsWindow := by
  intro vd xs s
  rw [exec_eq_withBlock, Block.exec]
  constructor
  · intro hfits
    rw [vinv_of_fits hfits]
    rfl
  · intro hover
    rw [vinv_of_overflow hover]
    rfl

/-- Settles O40: the two sides of the capacity test on the index. -/
theorem vsetbSetsBit : Obligations.VsetbSetsBit := by
  intro vd xs s hwf
  obtain ⟨hL, -⟩ := (wfV_iff s vd).mp hwf
  rw [exec_eq_withBlock, Block.exec]
  constructor
  · intro hfits
    rw [vsetb_of_fits hL hfits]
    rfl
  · intro hover
    rw [vsetb_of_overflow hover]
    rfl

/-- Settles O41: by the bit; for a clear bit the block is the old one. -/
theorem vclrbClearsBit : Obligations.VclrbClearsBit := by
  intro vd xs s hwf
  obtain ⟨hL, -⟩ := (wfV_iff s vd).mp hwf
  rw [exec_eq_withBlock, Block.exec]
  constructor
  · intro hset
    rw [vclrb_of_set hL hset]
    rfl
  · intro hclear
    rw [vclrb_of_clear hL hclear, withBlock_self]

/-- Settles O42: the bit of the sequence that VTSTB reads is the bit of the value. -/
theorem vtstbTestsBit : Obligations.VtstbTestsBit := by
  intro vs xs s
  rw [exec_eq_withBlock, Block.exec, Block.vtstb, seqBit_eq_testBit]
  rfl

/-! ### The round trips -/

/-- Inverting one window twice restores the value (R172, R176). -/
theorem invNat_invNat (v n : Nat) : invNat (invNat v n) n = v :=
  Nat.xor_xor_cancel_right v (2 ^ n - 1)

/-- What a write of `limbs n` leaves as the register's value. -/
theorem writeV_limbs_valV (b : Block) (r : VReg) (n : Nat) : (b.writeV r (limbs n)).valV r = n := by
  rw [Block.valV, writeV_readV, if_pos rfl, val_limbs]

section RoundTrips
variable {cap : Nat} {vd : VReg} {xs : XReg} {b : Block}

/-- Whatever was written to a reduced register, writing the `limbs` of its old value restores the block (R24). -/
theorem writeV_limbs_valV_restores (hL : reducedForm (b.readV vd) = true) (M : List Limb) :
    (b.writeV vd M).writeV vd (limbs (b.valV vd)) = b := by
  rw [writeV_writeV, Block.valV, limbs_val hL, writeV_self]

theorem vshr_vshl (hL : reducedForm (b.readV vd) = true)
    (h : b.valV vd = 0 ∨ bitlen (b.valV vd) + (b.readX xs).toNat ≤ 32 * cap) :
    Block.vshr vd xs (Block.vshl cap vd xs b) = b := by
  rw [vshl_of_fits h, vshr_eq, writeV_limbs_valV, writeV_readX, Nat.mul_div_cancel _ (by positivity),
    writeV_limbs_valV_restores hL]

theorem vinv_vinv (hL : reducedForm (b.readV vd) = true) (h : (b.readX xs).toNat ≤ 32 * cap) :
    Block.vinv cap vd xs (Block.vinv cap vd xs b) = b := by
  rw [vinv_of_fits h, vinv_of_fits (by rwa [writeV_readX]), writeV_limbs_valV, writeV_readX, invNat_invNat,
    writeV_limbs_valV_restores hL]

end RoundTrips

/-- Two commands whose rules restore the block restore the state (R41). -/
theorem exec_exec_restores {i j : Instr} {s : State}
    (h : Block.exec s.cap j (Block.exec s.cap i s.toBlock) = s.toBlock) :
    ∃ t, exec i s = .next t ∧ exec j t = .next s := by
  refine ⟨_, exec_eq_withBlock i s, ?_⟩
  rw [exec_eq_withBlock, withBlock_cap, withBlock_toBlock, h, withBlock_withBlock, withBlock_self]

/-- Settles O57: a legal register is reduced, so the value brought back brings back its limbs. -/
theorem shiftAndInvertRoundTrips : Obligations.ShiftAndInvertRoundTrips := by
  intro vd xs s hwf
  obtain ⟨hL, -⟩ := (wfV_iff s vd).mp hwf
  exact ⟨fun hfits => exec_exec_restores (vshr_vshl hL hfits), fun hfits => exec_exec_restores (vinv_vinv hL hfits)⟩

end Sys2Proof.Proofs.BarrelShifter
end

section
/-! PROOFS of the family 44_normalizer_shifter.md. All three commands are about the index of one set bit: CTZL and VRAL
about the lowest, which is the exponent of 2 in the value (`ctz`), VLAL about the highest, one below the width (`bitlen`).
The de Bruijn form looks the lowest one up in a table. -/

namespace Sys2Proof.Proofs.NormalizerShifter

open Sys2Proof Sys2Proof.Machine Sys2Proof.Proofs.Scope Sys2Proof.Proofs.StateFamily Sys2Proof.Proofs.LegalStates
  Sys2Proof.Proofs.BarrelShifter

/-! ### The lowest set bit of a number -/

theorem mul_two_pow_ne_zero {n : Nat} (hn : n ≠ 0) (k : Nat) : n * 2 ^ k ≠ 0 :=
  Nat.mul_ne_zero hn (by positivity)

/-- The lowest set bit of an odd number moved up is where its bit 0 went. -/
theorem ctz_odd_mul_two_pow {q : Nat} (hq : q % 2 = 1) (k : Nat) : ctz (q * 2 ^ k) = k := by
  obtain ⟨hset, hbelow⟩ := ctz_spec (mul_two_pow_ne_zero (n := q) (by omega) k)
  have hk : (q * 2 ^ k).testBit k = true := by
    rw [Nat.testBit_mul_two_pow, Nat.sub_self, Nat.testBit_zero]
    simp [hq]
  obtain hlt | heq | hgt := lt_trichotomy (ctz (q * 2 ^ k)) k
  · rw [Nat.testBit_mul_two_pow, decide_eq_false hlt.not_ge, Bool.false_and] at hset
    exact absurd hset (by decide)
  · exact heq
  · rw [hbelow k hgt] at hk
    exact absurd hk (by decide)

/-- A number that is not 0 is an odd number moved up by the index of its lowest set bit (R199). -/
theorem exists_odd_mul_two_pow_ctz {n : Nat} (hn : n ≠ 0) : ∃ q, q % 2 = 1 ∧ n = q * 2 ^ ctz n := by
  obtain ⟨k, q, hodd, rfl⟩ := Nat.exists_eq_two_pow_mul_odd hn
  have hq : q % 2 = 1 := Nat.odd_iff.mp hodd
  rw [Nat.mul_comm, ctz_odd_mul_two_pow hq]
  exact ⟨q, hq, rfl⟩

theorem div_two_pow_ctz_odd {n : Nat} (hn : n ≠ 0) : n / 2 ^ ctz n % 2 = 1 := by
  obtain ⟨hset, -⟩ := ctz_spec hn
  simpa [Nat.testBit_eq_decide_div_mod_eq] using hset

theorem div_two_pow_ctz_mul {n : Nat} (hn : n ≠ 0) : n / 2 ^ ctz n * 2 ^ ctz n = n := by
  obtain ⟨q, -, hval⟩ := exists_odd_mul_two_pow_ctz hn
  exact Nat.div_mul_cancel (Dvd.intro_left q hval.symm)

theorem ctz_mul_two_pow {n : Nat} (hn : n ≠ 0) (k : Nat) : ctz (n * 2 ^ k) = ctz n + k := by
  obtain ⟨q, hq, hval⟩ := exists_odd_mul_two_pow_ctz hn
  calc ctz (n * 2 ^ k) = ctz (q * 2 ^ (ctz n + k)) := by rw [pow_add, ← Nat.mul_assoc, ← hval]
    _ = ctz n + k := ctz_odd_mul_two_pow hq _

theorem ctz_lt_bitlen {n : Nat} (hn : n ≠ 0) : ctz n < bitlen n := by
  obtain ⟨hset, -⟩ := ctz_spec hn
  exact (lt_bitlen_iff _ _).mpr (Nat.ge_two_pow_of_testBit hset)

/-! ### The lowest set bit of a limb, and CTZL -/

/-- `ctz32` in the bits of the limb (R196). -/
theorem ctz32_spec {l : Limb} (hl : l ≠ 0#32) :
    l.getLsbD (ctz32 l) = true ∧ ∀ j < ctz32 l, l.getLsbD j = false :=
  ctz_spec (BitVec.toNat_ne.mp hl)

theorem ctz32_lt {l : Limb} (hl : l ≠ 0#32) : ctz32 l < 32 :=
  BitVec.lt_of_getLsbD (ctz32_spec hl).1

theorem ctzl_of_ne_zero {xs : XReg} {b : Block} (h : b.readX xs ≠ 0#32) (xd : XReg) :
    Block.ctzl xd xs b = b.writeX xd (BitVec.ofNat 32 (ctz32 (b.readX xs))) :=
  if_neg h

theorem ctzl_of_zero {xs : XReg} {b : Block} (h : b.readX xs = 0#32) (xd : XReg) :
    Block.ctzl xd xs b = b.faultEntry .zeroOperand (encode (.ctzl xd xs)) :=
  if_pos h

/-- Settles O43: the index is `ctz32`, the two sides of the zero test. -/
theorem ctzlFindsLowestBit : Obligations.CtzlFindsLowestBit := by
  intro xd xs s
  rw [exec_eq_withBlock, Block.exec]
  constructor
  · intro hne
    obtain ⟨hset, hbelow⟩ := ctz32_spec hne
    rw [ctzl_of_ne_zero hne]
    exact ⟨ctz32 (s.readX xs), ctz32_lt hne, hset, hbelow, rfl⟩
  · intro hz
    rw [ctzl_of_zero hz]
    rfl

/-! ### The de Bruijn form -/

/-- `l & -l` keeps the lowest set bit alone: below it both words have 0, and above it negation complements (R196). -/
theorem and_neg_eq_twoPow {l : Limb} (hl : l ≠ 0#32) : l &&& -l = BitVec.twoPow 32 (ctz32 l) := by
  obtain ⟨hset, hbelow⟩ := ctz32_spec hl
  have hlt := ctz32_lt hl
  apply BitVec.eq_of_getLsbD_eq
  intro i hi
  rw [BitVec.getLsbD_and, BitVec.getLsbD_neg, BitVec.getLsbD_twoPow]
  obtain h | h | h := lt_trichotomy i (ctz32 l)
  · simp [hbelow i h, h.ne']
  · have hnone : ¬ ∃ j < i, l.getLsbD j = true := by
      rintro ⟨j, hj, hbit⟩
      rw [hbelow j (h ▸ hj)] at hbit
      exact absurd hbit (by decide)
    subst h
    simp [hset, hi, hnone]
  · have hsome : ∃ j < i, l.getLsbD j = true := ⟨_, h, hset⟩
    simp [hi, hsome, h.ne]

/-- The table inverts the 32 products of the multiplier with one bit. -/
theorem deBruijnTable_twoPow : ∀ k < 32,
    deBruijnTable.getD ((BitVec.twoPow 32 k * 0x077CB531#32) >>> 27).toNat 0 = k := by
  decide

/-- Settles O53: only the lowest set bit reaches the multiplier, so the table decides. -/
theorem deBruijnFormFindsLowestBit : Obligations.DeBruijnFormFindsLowestBit := by
  intro l hl
  rw [ctz32DeBruijn, and_neg_eq_twoPow hl]
  exact deBruijnTable_twoPow _ (ctz32_lt hl)

/-! ### VLAL -/

/-- The amount fills the last limb exactly (R198, C1). -/
theorem bitlen_add_leftAlignAmount {L : List Limb} (hr : reducedForm L = true) (hz : val L ≠ 0) :
    bitlen (val L) + leftAlignAmount L = 32 * L.length := by
  have hle := bitlen_add_leftAlignAmount_le hr hz
  have hpos : 0 < L.length := List.length_pos_iff.mpr ((reducedForm_iff L).mp hr).1
  have hbits : bitlen (val L) = seqLog2 L + 1 := by rw [bitlen_eq_log2 hz, seqLog2_eq hr hz]
  have hge : (L.length - 1) * 32 ≤ seqLog2 L := Nat.le_add_right _ _
  have hamount : leftAlignAmount L = 31 - (seqLog2 L - 32 * (L.length - 1)) := rfl
  omega

theorem leftAlignAmount_le (L : List Limb) : leftAlignAmount L ≤ 31 :=
  Nat.sub_le _ _

/-- The value after VLAL is as wide as the register (R198). -/
theorem bitlen_leftAligned {L : List Limb} (hr : reducedForm L = true) (hz : val L ≠ 0) :
    bitlen (val L * 2 ^ leftAlignAmount L) = 32 * L.length := by
  rw [bitlen_mul_two_pow hz, bitlen_add_leftAlignAmount hr hz]

theorem length_limbs_of_bitlen {n k : Nat} (hn : n ≠ 0) (h : bitlen n = 32 * k) : (limbs n).length = k := by
  rw [length_limbs hn, h]
  omega

theorem testBit_bitlen_sub_one {n : Nat} (hn : n ≠ 0) : n.testBit (bitlen n - 1) = true := by
  rw [bitlen_eq_log2 hn, Nat.add_sub_cancel]
  exact Nat.testBit_log2 hn

theorem vlal_of_ne_zero {vd : VReg} {b : Block} (h : b.valV vd ≠ 0) (xd : XReg) :
    Block.vlal xd vd b = (b.writeV vd (limbs (b.valV vd * 2 ^ leftAlignAmount (b.readV vd)))).writeX xd
      (BitVec.ofNat 32 (leftAlignAmount (b.readV vd))) := by
  rw [Block.vlal, shl_eq]
  exact if_neg h

theorem vlal_of_zero {vd : VReg} {b : Block} (h : b.valV vd = 0) (xd : XReg) :
    Block.vlal xd vd b = b.writeX xd 0#32 :=
  if_pos h

/-- Settles O44: the width after the shift gives both the length and the top bit. -/
theorem vlalLeftAligns : Obligations.VlalLeftAligns := by
  intro xd vd s hwf
  obtain ⟨hL, -⟩ := (wfV_iff s vd).mp hwf
  rw [exec_eq_withBlock, Block.exec]
  constructor
  · intro hne
    have hwidth := bitlen_leftAligned hL hne
    have haligned := mul_two_pow_ne_zero hne (leftAlignAmount (s.readV vd))
    rw [vlal_of_ne_zero hne]
    refine ⟨leftAlignAmount (s.readV vd), leftAlignAmount_le _, length_limbs_of_bitlen haligned hwidth, ?_, rfl⟩
    rw [← hwidth]
    exact testBit_bitlen_sub_one haligned
  · intro hz
    rw [vlal_of_zero hz]
    rfl

/-! ### VRAL -/

/-- VRAL's first part (R199): the low limbs of 0 hold nothing, and a value that is not 0 has a limb above them that is
not 0. -/
theorem exists_dropLowZeros {L : List Limb} (hz : val L ≠ 0) :
    ∃ l M, dropLowZeros L = l :: M ∧ l ≠ 0#32 ∧ val L = val (l :: M) * 2 ^ (32 * lowZeroLimbs L) := by
  induction L with
  | nil => exact absurd rfl hz
  | cons a L ih =>
    by_cases ha : a = 0#32
    · subst ha
      have hval : val (0#32 :: L) = 2 ^ 32 * val L := by simp [val_cons]
      have hdrop : dropLowZeros (0#32 :: L) = dropLowZeros L := rfl
      have hcount : lowZeroLimbs (0#32 :: L) = lowZeroLimbs L + 1 := rfl
      obtain ⟨l, M, hcons, hl, hrest⟩ := ih (fun h => hz (by rw [hval, h, Nat.mul_zero]))
      refine ⟨l, M, by rw [hdrop, hcons], hl, ?_⟩
      rw [hval, hrest, hcount, Nat.mul_succ, pow_add]
      ring
    · exact ⟨a, L, by simp [dropLowZeros, ha], ha, by simp [lowZeroLimbs, ha]⟩

/-- The lowest set bit of a sequence lies in its lowest limb when that is not 0. -/
theorem ctz_val_cons {l : Limb} (hl : l ≠ 0#32) (M : List Limb) : ctz (val (l :: M)) = ctz32 l := by
  obtain ⟨q, hq, hlimb⟩ : ∃ q, q % 2 = 1 ∧ l.toNat = q * 2 ^ ctz32 l :=
    exists_odd_mul_two_pow_ctz (BitVec.toNat_ne.mp hl)
  have hlt := ctz32_lt hl
  obtain ⟨d, hd⟩ : ∃ d, 32 = d + 1 + ctz32 l := ⟨31 - ctz32 l, by omega⟩
  have hval : val (l :: M) = (q + 2 * (2 ^ d * val M)) * 2 ^ ctz32 l := by
    have hpow : 2 ^ 32 = 2 ^ d * 2 * 2 ^ ctz32 l := by rw [← pow_succ, ← pow_add, ← hd]
    rw [val_cons, hlimb, hpow]
    ring
  rw [hval, ctz_odd_mul_two_pow (by omega)]

/-- VRAL counts the trailing zero bits of the whole value and shifts them out (R199). -/
theorem vral_of_ne_zero {vd : VReg} {b : Block} (h : b.valV vd ≠ 0) (xd : XReg) :
    Block.vral xd vd b = (b.writeV vd (limbs (b.valV vd / 2 ^ ctz (b.valV vd)))).writeX xd
      (BitVec.ofNat 32 (ctz (b.valV vd))) := by
  obtain ⟨l, M, hdrop, hl, hval⟩ := exists_dropLowZeros h
  have hne : val (l :: M) ≠ 0 := fun h0 => h (by rw [Block.valV, hval, h0, Nat.zero_mul])
  have hctz : ctz (b.valV vd) = ctz32 l + 32 * lowZeroLimbs (b.readV vd) := by
    rw [Block.valV, hval, ctz_mul_two_pow hne, ctz_val_cons hl]
  have hquot : b.valV vd / 2 ^ ctz (b.valV vd) = val (l :: M) / 2 ^ ctz32 l := by
    rw [hctz, pow_add, Block.valV, hval, Nat.mul_div_mul_right _ _ (by positivity)]
  rw [hquot, hctz, Nat.add_comm, ← shr_eq, Block.vral, hdrop]
  exact if_neg h

theorem vral_of_zero {vd : VReg} {b : Block} (h : b.valV vd = 0) (xd : XReg) :
    Block.vral xd vd b = b.writeX xd 0#32 :=
  if_pos h

/-- Settles O45: the count is the exponent of 2 in the value, and a legal register bounds it. -/
theorem vralRightAligns : Obligations.VralRightAligns := by
  intro xd vd s hwf
  rw [exec_eq_withBlock, Block.exec]
  constructor
  · intro hne
    have hbits : bitlen (s.valV vd) ≤ 32 * s.cap :=
      (bitlen_le_iff _ _).mpr (val_lt_of_legalReg ((wfV_iff s vd).mp hwf))
    rw [vral_of_ne_zero hne]
    exact ⟨ctz (s.valV vd), s.valV vd / 2 ^ ctz (s.valV vd), (div_two_pow_ctz_mul hne).symm, div_two_pow_ctz_odd hne,
      (ctz_lt_bitlen hne).trans_le hbits, rfl⟩
  · intro hz
    rw [vral_of_zero hz]
    rfl

/-! ### VRAL after VLAL -/

theorem writeX_valV (b : Block) (r : XReg) (l : Limb) (q : VReg) : (b.writeX r l).valV q = b.valV q := rfl

/-- A count below 2^32 is read back as it was written (R84). -/
theorem toNat_readX_writeX_ofNat {n : Nat} (hn : n < 2 ^ 32) (b : Block) (r : XReg) :
    ((b.writeX r (BitVec.ofNat 32 n)).readX r).toNat = n := by
  rw [writeX_readX, if_pos rfl, BitVec.toNat_ofNat, Nat.mod_eq_of_lt hn]

/-- VRAL after VLAL counts the bits VLAL shifted in together with those that were there, and so leaves the odd part of the
old value (R200). -/
theorem vral_vlal {vd : VReg} {b : Block} (h : b.valV vd ≠ 0) (xd xe : XReg) :
    Block.vral xe vd (Block.vlal xd vd b) =
      ((Block.vlal xd vd b).writeV vd (limbs (b.valV vd / 2 ^ ctz (b.valV vd)))).writeX xe
        (BitVec.ofNat 32 (ctz (b.valV vd) + leftAlignAmount (b.readV vd))) := by
  have hval : (Block.vlal xd vd b).valV vd = b.valV vd * 2 ^ leftAlignAmount (b.readV vd) := by
    rw [vlal_of_ne_zero h, writeX_valV, writeV_limbs_valV]
  have hne : (Block.vlal xd vd b).valV vd ≠ 0 := by
    rw [hval]
    exact mul_two_pow_ne_zero h _
  rw [vral_of_ne_zero hne, hval, ctz_mul_two_pow h, pow_add, Nat.mul_div_mul_right _ _ (by positivity)]

/-- Both counts of VLAL and then VRAL are below 2^32, the second because it indexes a bit of the aligned value. -/
theorem ctz_add_leftAlignAmount_lt {L : List Limb} {cap : Nat} (hL : LegalReg cap L) (hcap : cap ≤ Config.maxCap)
    (hz : val L ≠ 0) : ctz (val L) + leftAlignAmount L < 2 ^ 32 := by
  obtain ⟨hr, hlen⟩ := hL
  have hbit := ctz_lt_bitlen hz
  have hwidth := bitlen_add_leftAlignAmount hr hz
  have hmax : cap ≤ 67108864 := hcap
  omega

/-- Settles O46: the second count exceeds the first by the trailing zero bits of the old value. -/
theorem rightAlignAfterLeftAlign : Obligations.RightAlignAfterLeftAlign := by
  intro xd xe vd s hlegal hwf hne
  have hsecond : ctz (s.valV vd) + leftAlignAmount (s.readV vd) < 2 ^ 32 :=
    ctz_add_leftAlignAmount_lt ((wfV_iff s vd).mp hwf) hlegal.2 hne
  have hfirst : leftAlignAmount (s.readV vd) < 2 ^ 32 := by omega
  have ht : ((Block.vlal xd vd s.toBlock).readX xd).toNat = leftAlignAmount (s.readV vd) := by
    rw [vlal_of_ne_zero hne, toNat_readX_writeX_ofNat hfirst]
  refine ⟨_, _, exec_eq_withBlock _ _, exec_eq_withBlock _ _, ?_⟩
  simp only [Block.exec, withBlock_toBlock, vral_vlal hne]
  rw [BitVec.le_def, ht, toNat_readX_writeX_ofNat hsecond, Nat.add_sub_cancel, writeX_valV, writeV_limbs_valV]
  exact ⟨Nat.le_add_left _ _, div_two_pow_ctz_odd hne, div_two_pow_ctz_mul hne⟩

end Sys2Proof.Proofs.NormalizerShifter
end

section
/-! PROOFS of the family 45_comparison_unit.md. LOG2L and VLOG2 both write the `log2` of a number: of the limb (R214), and
of the value of a reduced sequence, which its length and its last limb give (R214, R24). -/

namespace Sys2Proof.Proofs.ComparisonUnit

open Sys2Proof Sys2Proof.Machine Sys2Proof.Proofs.Scope Sys2Proof.Proofs.StateFamily Sys2Proof.Proofs.LegalStates

/-! ### LOG2L -/

theorem log2l_of_ne_zero {xs : XReg} {b : Block} (h : b.readX xs ≠ 0#32) (xd : XReg) :
    Block.log2l xd xs b = b.writeX xd (BitVec.ofNat 32 (Nat.log2 (b.readX xs).toNat)) :=
  if_neg h

theorem log2l_of_zero {xs : XReg} {b : Block} (h : b.readX xs = 0#32) (xd : XReg) :
    Block.log2l xd xs b = b.faultEntry .zeroOperand (encode (.log2l xd xs)) :=
  if_pos h

/-! ### VLOG2 -/

/-- On a reduced register the index put together from the length and the last limb is the `log2` of the value (R214). -/
theorem vlog2_of_ne_zero {vs : VReg} {b : Block} (hL : reducedForm (b.readV vs) = true) (h : b.valV vs ≠ 0) (xd : XReg) :
    Block.vlog2 xd vs b = b.writeX xd (BitVec.ofNat 32 (Nat.log2 (b.valV vs))) := by
  rw [Block.valV, ← seqLog2_eq hL h]
  exact if_neg h

theorem vlog2_of_zero {vs : VReg} {b : Block} (h : b.valV vs = 0) (xd : XReg) :
    Block.vlog2 xd vs b = b.faultEntry .zeroOperand (encode (.vlog2 xd vs)) :=
  if_pos h

/-- The highest set bit of a legal register lies below the capacity (R24, R285). -/
theorem log2_val_lt_of_legalReg {cap : Nat} {L : List Limb} (hL : LegalReg cap L) (hz : val L ≠ 0) :
    Nat.log2 (val L) < 32 * cap :=
  (Nat.log2_lt hz).mpr (val_lt_of_legalReg hL)

/-- Settles O48: the index is `log2`, of the limb and of the register's value, the two sides of the zero test for each
command. -/
theorem log2lAndVlog2FindHighestBit : Obligations.Log2lAndVlog2FindHighestBit := by
  refine ⟨fun xd xs s => ?_, fun xd vs s hwf => ?_⟩ <;> rw [exec_eq_withBlock, Block.exec]
  · constructor
    · intro hne
      rw [log2l_of_ne_zero hne]
      exact ⟨_, Nat.log2_self_le (BitVec.toNat_ne.mp hne), Nat.lt_log2_self, rfl⟩
    · intro hz
      rw [log2l_of_zero hz]
      rfl
  · have hlegal : LegalReg s.cap (s.readV vs) := (wfV_iff s vs).mp hwf
    constructor
    · intro hne
      rw [vlog2_of_ne_zero hlegal.1 hne]
      exact ⟨_, Nat.log2_self_le hne, Nat.lt_log2_self, log2_val_lt_of_legalReg hlegal hne, rfl⟩
    · intro hz
      rw [vlog2_of_zero hz]
      rfl

end Sys2Proof.Proofs.ComparisonUnit
end

section
/-! PROOFS of the family 46_integer_divider.md. Each pass of the outer loop is one division with remainder (R225): the first
gives the floor of the quotient, and the later passes together set bit 0 exactly when the remainder, doubled once for each
of them, reaches the denominator (R228). -/

namespace Sys2Proof.Proofs.IntegerDivider

open Sys2Proof Sys2Proof.Machine Sys2Proof.Proofs.Scope Sys2Proof.Proofs.StateFamily Sys2Proof.Proofs.LegalStates

/-! ### The outer loop -/

theorem divOuter_zero_self (n den result : Nat) : divOuter n 0 den result = result := by
  cases n with
  | zero => rfl
  | succ n => exact if_pos rfl

/-- One pass of the outer loop (R225). At 0 the loop ends, and a pass would change nothing. -/
theorem divOuter_succ (n self result : Nat) {den : Nat} (hd : 0 < den) :
    divOuter (n + 1) self den result = divOuter n (self % den * 2) den (result ||| self / den) := by
  by_cases h : self = 0
  · subst h
    rw [Nat.zero_mod, Nat.zero_mul, Nat.zero_div, Nat.or_zero, divOuter_zero_self, divOuter_zero_self]
  · rw [divOuter, if_neg h, divInner_eq result hd le_rfl]

/-- The passes after the first can only set bit 0: the pass in which the doubled remainder first reaches `den` sets it, and
no later pass clears it (R228). -/
theorem divOuter_doubled {rem den : Nat} (n result : Nat) (h : rem < den) :
    divOuter n (rem * 2) den result = result ||| (if den ≤ rem * 2 ^ n then 1 else 0) := by
  induction n generalizing rem result with
  | zero => simp [divOuter, h.not_ge]
  | succ n ih =>
    have hd : 0 < den := Nat.zero_lt_of_lt h
    have hpow : rem * 2 ^ (n + 1) = rem * 2 * 2 ^ n := by rw [pow_succ', Nat.mul_assoc]
    rw [divOuter_succ n _ _ hd, ih _ (Nat.mod_lt _ hd), hpow]
    by_cases hlt : rem * 2 < den
    · rw [Nat.mod_eq_of_lt hlt, Nat.div_eq_of_lt hlt, Nat.or_zero]
    · have hone : rem * 2 / den = 1 := Nat.div_eq_of_lt_le (by omega) (by omega)
      have hreach : den ≤ rem * 2 * 2 ^ n := (not_lt.mp hlt).trans (Nat.le_mul_of_pos_right _ (by positivity))
      rw [hone, if_pos hreach, Nat.or_assoc]
      split <;> rfl

/-- The loops compute the closed form (R225, R227, R228). -/
theorem fracDiv_eq_divClosed (n acc : Nat) {d : Nat} (hd : 0 < d) : fracDiv n d acc = divClosed n d acc := by
  rw [fracDiv, divOuter_succ acc _ _ hd, divOuter_doubled _ _ (Nat.mod_lt _ hd), Nat.zero_or]
  rfl

/-! ### The distance from the true quotient -/

/-- Setting bit 0 changes an even number alone. -/
theorem or_one_eq (q : Nat) : q ||| 1 = q ∨ q ||| 1 = q + 1 := by
  have hbit (k : Nat) : 2 * k + 1 = 2 * k ||| 1 := Nat.two_pow_add_eq_or_of_lt (i := 1) (by norm_num) k
  obtain ⟨k, rfl | rfl⟩ := q.even_or_odd'
  · exact .inr (hbit k).symm
  · rw [hbit, Nat.or_assoc, Nat.or_self]
    exact .inl rfl

/-- The result is the floor, or one above it when the division leaves a remainder (R228). -/
theorem fracDiv_eq_floor_or_succ (n acc : Nat) {d : Nat} (hd : 0 < d) :
    fracDiv n d acc = n * 2 ^ acc / d ∨ 0 < n * 2 ^ acc % d ∧ fracDiv n d acc = n * 2 ^ acc / d + 1 := by
  rw [fracDiv_eq_divClosed n acc hd, divClosed]
  split
  next hsticky =>
    have hrem : 0 < n * 2 ^ acc % d := Nat.pos_of_mul_pos_right (hd.trans_le hsticky)
    exact (or_one_eq _).imp_right (And.intro hrem)
  next => exact .inl (Nat.or_zero _)

/-- The floor is below the true quotient by the remainder, and one above the floor is above it by what the remainder lacks
to `d` (R230). -/
theorem natDiff_fracDiv_lt (n acc : Nat) {d : Nat} (hd : 0 < d) : natDiff (fracDiv n d acc * d) (n * 2 ^ acc) < d := by
  have hdiv := Nat.div_add_mod' (n * 2 ^ acc) d
  have hrem := Nat.mod_lt (n * 2 ^ acc) hd
  rw [natDiff]
  obtain h | ⟨hpos, h⟩ := fracDiv_eq_floor_or_succ n acc hd
  · rw [h]
    omega
  · rw [h, Nat.add_one_mul]
    omega

/-- Settles O52: the result is the floor or one above it. -/
theorem dividerErrorIsBelowDenominator : Obligations.DividerErrorIsBelowDenominator :=
  fun n _ acc hd => natDiff_fracDiv_lt n acc hd

/-- Settles O51: the closed form, and the bounds of the floor and one above it. -/
theorem dividerLoopHasClosedForm : Obligations.DividerLoopHasClosedForm := by
  intro n d acc hd
  have hcases := fracDiv_eq_floor_or_succ n acc hd
  exact ⟨fracDiv_eq_divClosed n acc hd, by omega, by omega, (natDiff_fracDiv_lt n acc hd).le⟩

/-! ### VDIV -/

theorem divClosed_zero (acc : Nat) {d : Nat} (hd : 0 < d) : divClosed 0 d acc = 0 := by
  simp [divClosed, hd.ne']

section Vdiv
variable {cap : Nat} {xd : XReg} {vd vs : VReg} {xs : XReg} {b : Block}

theorem vdiv_of_denominator_zero (h : b.valV vs = 0) :
    Block.vdiv cap xd vd vs xs b = b.faultEntry .divideByZero (encode (.vdiv xd vd vs xs)) :=
  if_pos h

/-- VDIV without a fault: zero, which is written at once, is the closed form of a zero numerator too (R226). -/
theorem vdiv_of_fits (hd : b.valV vs ≠ 0)
    (h : b.valV vd = 0 ∨ divWidth (b.valV vd) (b.valV vs) (b.readX xs).toNat ≤ 32 * cap) :
    Block.vdiv cap xd vd vs xs b =
      (b.writeV vd (limbs (divClosed (b.valV vd) (b.valV vs) (b.readX xs).toNat))).writeX xd (b.readX xs) := by
  simp only [Block.valV] at hd h ⊢
  have hpos := Nat.pos_of_ne_zero hd
  rw [Block.vdiv, Block.countX, if_neg hd, fracDiv_eq_divClosed _ _ hpos]
  by_cases hz : val (b.readV vd) = 0
  · rw [if_pos hz, hz, divClosed_zero _ hpos, limbs_zero]
  · rw [if_neg hz, if_pos ((fitsBits_iff _ _).mpr (h.resolve_left hz))]

theorem vdiv_of_overflow (hd : b.valV vs ≠ 0) (hz : b.valV vd ≠ 0)
    (h : 32 * cap < divWidth (b.valV vd) (b.valV vs) (b.readX xs).toNat) :
    Block.vdiv cap xd vd vs xs b = b.faultEntry .capacityOverflow (encode (.vdiv xd vd vs xs)) := by
  rw [Block.valV] at hd hz
  rw [Block.vdiv, if_neg hd, if_neg hz]
  exact if_neg fun hfits => h.not_ge ((fitsBits_iff _ _).mp hfits)

end Vdiv

/-- Settles O49: the loops' result in closed form, the zero numerator included. -/
theorem vdivDividesFractionally : Obligations.VdivDividesFractionally := by
  intro xd vd vs xs s hd hfits
  rw [exec_eq_withBlock, Block.exec, vdiv_of_fits hd hfits]
  rfl

/-- Settles O50: the two tests in the order of R287. -/
theorem vdivFaultsInOrder : Obligations.VdivFaultsInOrder := by
  intro xd vd vs xs s
  rw [exec_eq_withBlock, Block.exec]
  constructor
  · intro hd
    rw [vdiv_of_denominator_zero hd]
    rfl
  · intro hd hz hover
    rw [vdiv_of_overflow hd hz hover]
    rfl

end Sys2Proof.Proofs.IntegerDivider
end

section
/-! PROOFS of the family 60_exceptions.md. A step is one equation per transaction (R296), and Issue one per branch of R291, so
the statements about the step are read off those. The statements about the faults rest on what a command can do to the state:
fault entry with one of its faults, or completion (R288). The early capacity tests of R285 are shown to be the test on the
reduced result. -/

namespace Sys2Proof.Proofs.Exceptions

open Sys2Proof Sys2Proof.Machine Sys2Proof.Proofs.Scope Sys2Proof.Proofs.StateFamily Sys2Proof.Proofs.LegalStates
  Sys2Proof.Proofs.Encoding

/-! ### The capacity tests made before the work -/

section EarlyTests
variable {cap : Nat} {L : List Limb}

/-- A legal register holds a limb, so there is room for one (R24). -/
theorem cap_pos_of_legalReg (hL : LegalReg cap L) : 0 < cap := by
  obtain ⟨hr, hlen⟩ := hL
  have hne : L ≠ [] := ((reducedForm_iff L).mp hr).1
  exact (List.length_pos_iff.mpr hne).trans_le hlen

/-- VSHL: the width of a product by a power of two is the sum the early test takes (R170, R285). -/
theorem fitsSeq_shl (hcap : 0 < cap) (hz : val L ≠ 0) (k : Nat) :
    fitsSeq cap (shl L k) = fitsBits cap (bitlen (val L) + k) := by
  apply decide_eq_decide.mpr
  rw [shl_eq, length_limbs_le_iff _ hcap, bitlen_mul_two_pow hz]

/-- VINV: a result that fits differs from the old value, which fits too, below bit `32 * CAP` only, and the window is where
the two differ (R172, R285). -/
theorem fitsSeq_inv (hL : LegalReg cap L) (k : Nat) : fitsSeq cap (inv L k) = fitsBits cap k := by
  have hcap := cap_pos_of_legalReg hL
  apply decide_eq_decide.mpr
  refine ⟨fun hfits => ?_, fun hk => (legalReg_inv hcap hL hk).2⟩
  rw [inv_eq, length_limbs_le_iff _ hcap, bitlen_le_iff] at hfits
  have hwindow := Nat.xor_lt_two_pow (val_lt_of_legalReg hL) hfits
  rw [Nat.xor_xor_cancel_left] at hwindow
  exact (Nat.pow_le_pow_iff_right (by norm_num)).mp (Nat.le_of_pred_lt hwindow)

/-- VSETB: the register is extended to the limb that holds the bit, and the register itself fits (R173, R285). -/
theorem fitsSeq_setBit (hlen : L.length ≤ cap) (i : Nat) : fitsSeq cap (setBit L i) = fitsBits cap (i + 1) := by
  apply decide_eq_decide.mpr
  rw [length_setBit]
  omega

end EarlyTests

section Commit
variable {cap : Nat} {vd : VReg} {xs : XReg} {b : Block}

/-- VSHL is the capacity test on the shifted sequence; zero, which is settled at once, is one limb (R170). -/
theorem vshl_eq_commitV (hL : LegalReg cap (b.readV vd)) :
    Block.vshl cap vd xs b = commitV cap (.vshl vd xs) vd (shl (b.readV vd) (b.readX xs).toNat) b := by
  have hcap := cap_pos_of_legalReg hL
  rw [Block.vshl]
  by_cases hz : val (b.readV vd) = 0
  · have hzero : shl (b.readV vd) (b.readX xs).toNat = [0#32] := by rw [shl_eq, hz, Nat.zero_mul, limbs_zero]
    rw [if_pos hz, hzero, commitV_fits hcap]
  · rw [if_neg hz, commitV, fitsSeq_shl hcap hz, Block.countX]

theorem vinv_eq_commitV (hL : LegalReg cap (b.readV vd)) :
    Block.vinv cap vd xs b = commitV cap (.vinv vd xs) vd (inv (b.readV vd) (b.readX xs).toNat) b := by
  rw [Block.vinv, commitV, fitsSeq_inv hL, Block.countX]

theorem vsetb_eq_commitV (hL : LegalReg cap (b.readV vd)) :
    Block.vsetb cap vd xs b = commitV cap (.vsetb vd xs) vd (setBit (b.readV vd) (b.readX xs).toNat) b := by
  rw [Block.vsetb, commitV, fitsSeq_setBit hL.2, Block.countX]

end Commit

/-- The capacity test on the machine's state (R13, R285). -/
theorem next_withBlock_commitV (i : Instr) (vd : VReg) (R : List Limb) (s : State) :
    (.next (s.withBlock (commitV s.cap i vd R s.toBlock)) : Result) =
      if s.cap < R.length then .next (faultEntry .capacityOverflow (encode i) s)
      else .next { s with v := s.v.set vd R } := by
  obtain ⟨hfits, hb⟩ | ⟨hover, hb⟩ := commitV_cases s.cap i vd R s.toBlock
  · rw [hb, if_neg hfits.not_gt]
    rfl
  · rw [hb, if_pos hover]
    rfl

/-- Settles O60: for a legal register each command is the capacity test on its result. -/
theorem earlyCapacityTestsAgree : Obligations.EarlyCapacityTestsAgree := by
  intro vd xs s hwf
  have hL : LegalReg s.cap (s.readV vd) := (wfV_iff s vd).mp hwf
  simp only [exec_eq_withBlock, Block.exec]
  rw [vshl_eq_commitV hL, vinv_eq_commitV hL, vsetb_eq_commitV hL]
  exact ⟨next_withBlock_commitV _ vd _ s, next_withBlock_commitV _ vd _ s, next_withBlock_commitV _ vd _ s⟩

/-! ### The step, transaction by transaction -/

theorem step_of_idle {s : State} (h : s.pending = []) : step s = .next s := by
  rw [step, nextTransaction, h]

theorem step_of_issue {s : State} {w : Word} {rest : List Transaction} (h : s.pending = .issue w :: rest) :
    step s = issue w { s with pending := rest, reply := none } := by
  rw [step, nextTransaction, h]
  rfl

theorem step_of_reset {s : State} {rest : List Transaction} (h : s.pending = .reset :: rest) :
    step s = .next (resetBlock { s with pending := rest, reply := none }) := by
  rw [step, nextTransaction, h]
  rfl

/-- Settles O9: Reset writes the reset block (R310); idleness, Observe and a discarded word all leave F as it was. -/
theorem resetIsTheOnlyWayOut : Obligations.ResetIsTheOnlyWayOut := by
  refine ⟨fun s rest h => step_of_reset h, fun s t h hs ht => ?_⟩
  obtain ⟨-, rfl⟩ | ⟨w, rest, -, hissue⟩ | ⟨n, rest, -, rfl⟩ | ⟨n, j, rest, -, rfl⟩ | ⟨rest, hreset, -⟩ := step_next h
  · exact absurd (hs.symm.trans ht) (by decide)
  · rw [issue_of_faulted w (s := { s with pending := rest, reply := none }) hs] at hissue
    obtain rfl := Host.Outcome.next.inj hissue
    exact absurd (hs.symm.trans ht) (by decide)
  · exact absurd (hs.symm.trans ht) (by decide)
  · exact absurd (hs.symm.trans ht) (by decide)
  · exact ⟨rest, hreset⟩

/-- Settles O12: every transaction answers a next state, Issue because a step over the block is a block. -/
theorem stepIsTotal : Obligations.StepIsTotal := by
  refine fun s => ⟨?_, step_of_idle⟩
  cases hp : s.pending with
  | nil => exact ⟨s, step_of_idle hp⟩
  | cons a rest =>
    cases a with
    | issue w => exact ⟨_, (step_of_issue hp).trans (issue_eq_withBlock w _)⟩
    | observe n => exact ⟨_, step_of_observe hp⟩
    | observeLimb n j => exact ⟨_, step_of_observeLimb hp⟩
    | reset => exact ⟨_, step_of_reset hp⟩

/-- Settles O6: Issue of the word taken, and its branch for a command. -/
theorem stepRunsTheDecodedCommand : Obligations.StepRunsTheDecodedCommand :=
  fun _ _ _ hp => ⟨step_of_issue hp, fun _ hf hd => (step_of_issue hp).trans (issue_of_command hf hd)⟩

/-- Settles O7: a word that no row accepts does not decode, and Issue then enters the fault. -/
theorem illegalWordsRaiseReservedEncoding : Obligations.IllegalWordsRaiseReservedEncoding :=
  fun _ w hf hrows => issue_of_reservedEncoding hf ((no_row_accepts_iff_reserved w).mp hrows)

/-- Settles O8: the word is discarded; Observe does not look at F. -/
theorem faultedBlockDiscardsCommands : Obligations.FaultedBlockDiscardsCommands :=
  fun _ _ hf => ⟨fun w hp => (step_of_issue hp).trans (issue_of_faulted w hf), fun _ hp => step_of_observe hp,
    fun _ _ hp => step_of_observeLimb hp⟩

/-! ### Fault entry -/

/-- Issue sets F only by fault entry, and what it records is the issued word: the word of a decoded command is the word it
was decoded from (log entry 5). -/
theorem faultEntry_of_issue {s t : State} {w : Word} (hs : s.flagF = false) (h : issue w s = .next t)
    (ht : t.flagF = true) : ∃ k, t = faultEntry k w s := by
  obtain ⟨hf, -⟩ | ⟨-, -, hfault⟩ | ⟨-, i, hd, hexec⟩ := issue_next h
  · exact absurd (hf.symm.trans hs) (by decide)
  · exact ⟨_, hfault⟩
  · rw [← encodeInvertsDecode w i hd]
    obtain ⟨k, -, hfault⟩ | ⟨r, rfl⟩ := exec_cases hexec
    · exact ⟨k, hfault⟩
    · rw [withBlock_toBlock, complete_flagF] at ht
      exact absurd (ht.symm.trans hs) (by decide)

/-- Settles O15: the three writes of fault entry leave the other flags. -/
theorem faultEntryIsPrecise : Obligations.FaultEntryIsPrecise := by
  intro s t w hs h ht
  obtain ⟨k, rfl⟩ := faultEntry_of_issue hs h ht
  exact ⟨k, rfl, block_faultEntry_flagC s.toBlock k w, block_faultEntry_flagEQ s.toBlock k w,
    block_faultEntry_flagLT s.toBlock k w, block_faultEntry_flagT s.toBlock k w, code_range k⟩

/-- Settles O16: a command that completes writes neither F nor the record. -/
theorem commandsRaiseOnlyTheirFaults : Obligations.CommandsRaiseOnlyTheirFaults := by
  intro i s t h
  obtain hfault | ⟨w, rfl⟩ := exec_cases h
  · exact .inr hfault
  · exact .inl ⟨complete_flagF w s.toBlock, complete_cause w s.toBlock, complete_fcmd w s.toBlock⟩

end Sys2Proof.Proofs.Exceptions
end
